-- ==== Sys2Proof/Word.lean ====
section
/-! DEFINITION. The byte, the block's only data word (10_state.md R21, R22; 20_memory.md R54: every
access is one byte wide). -/

namespace Sys2Proof

/-- A byte. Bit 0 is the least significant bit (30_encoding.md R70). -/
abbrev Byte := BitVec 8

/-- `zeros(n)` of 00_scope.md section 4: `n` bytes of value `0x00`. -/
def zeros (n : Nat) : List Byte := List.replicate n 0#8

end Sys2Proof
end

