-- ==== Sys2Proof/Config.lean ====
section
/-! DEFINITION. The elaboration parameters of the block (00_scope.md R5, R6, R7) and the free values of
the output fields that no receiver may take (10_state.md R37; 93_implementation_defined.md I9). -/

namespace Sys2Proof

/-- The parameters fixed at elaboration. They are plain data, so that the model and every claim range
over all of them (00_scope.md R5 to R7: OPEN, model arguments). -/
structure Config where
  /-- `C`, the payload capacity of a frame in bytes (00_scope.md R5). -/
  cap : Nat
  /-- `LEN_BITS`, the width of the request's length field (00_scope.md R6). -/
  lenBits : Nat
  /-- `SEQ_BITS`, the width of the request's sequence field (00_scope.md R7). -/
  seqBits : Nat
  deriving DecidableEq, Repr

/-- The legal ranges: `1 <= C <= 255`, `LEN_BITS >= 10`, `SEQ_BITS >= 5` (00_scope.md R5 to R7). -/
def Config.legal (c : Config) : Bool :=
  decide (1 ≤ c.cap) && decide (c.cap ≤ 255) && decide (10 ≤ c.lenBits) && decide (5 ≤ c.seqBits)

/-- Elaboration: a block outside the legal ranges does not exist, and the model refuses to build one
(60_exceptions.md R173). -/
def Config.elaborate (cap lenBits seqBits : Nat) : Option Config :=
  if Config.legal ⟨cap, lenBits, seqBits⟩ then some ⟨cap, lenBits, seqBits⟩ else none

/-- The configuration of `State.reset`. DESIGN CHOICE (log 1): the spec leaves the three parameters
open; these are the values its examples and vectors use (`C = 180`, `LEN_BITS = 10`, `SEQ_BITS = 32`). -/
def Config.ofExamples : Config := ⟨180, 10, 32⟩

/-- Free value: `frm.length` while `frm_valid = 0` (I9, `any value`; log 11). -/
opaque Config.freeLength : Nat → Byte

/-- Free value: `frm.flags` while `frm_valid = 0` (I9; log 11). -/
opaque Config.freeFlags : Nat → Byte

/-- Free value: byte `j` (second argument) of `frm.payload` while `frm_valid = 0` (I9; log 11). -/
opaque Config.freePayload : Nat → Nat → Byte

/-- Free value: `rsp.status` while `rsp_valid = 0` (I9; log 11). -/
opaque Config.freeStatus : Nat → Bool

/-- Free value: `rsp.count` while `rsp_valid = 0` (I9; log 11). -/
opaque Config.freeCount : Nat → BitVec 3

end Sys2Proof
end

