-- ==== Sys2Proof/Syntax.lean ====
section
/-! DEFINITION. The operations of the block, one constructor per row of spec/opcode_table.json, and the
values that travel on its three channels (10_state.md R21 to R23; 30_encoding.md R74, R76, R77). -/

namespace Sys2Proof

/-- A request on REQ (10_state.md R21). `len` and `seq` are unsigned fields of `LEN_BITS` and `SEQ_BITS`
bits; `Request.wf` says that they fit and that `len = |input|`. -/
structure Request where
  input : List Byte
  len   : Nat
  seq   : Nat
  deriving DecidableEq, Repr

/-- A frame on FRM (30_encoding.md R74): its three fields travel in one transfer (20_memory.md R55). -/
structure Frame where
  length  : Byte
  flags   : Byte
  payload : List Byte
  deriving DecidableEq, Repr

/-- A response on RSP (10_state.md R23). `status = true` is the bit value 1, OVERSIZE. -/
structure Response where
  status : Bool
  count  : BitVec 3
  deriving DecidableEq, Repr

/-- One observed transfer: an item taken from FRM or from RSP (92_eei_decisions.md D22). -/
inductive Transfer where
  | frm (f : Frame)
  | rsp (r : Response)
  deriving DecidableEq, Repr

/-- The operations: one constructor per row of the opcode table. Each is the transfer of one channel
item; the operands are the fields the row's encoding carries. -/
inductive Instr where
  /-- FRAGMENT (40_packet_fragmenter.md R100, R105): the request transfer. -/
  | fragment (req : Request)
  /-- FRAME_SINGLE, `sssss000` (41_payload_slicer_metadata_encoder.md R123). -/
  | frameSingle (seq : BitVec 5)
  /-- FRAME_FRAG0, `sssss001` (R124). -/
  | frameFrag0 (seq : BitVec 5)
  /-- FRAME_FRAG1, `sssss011` (R125). -/
  | frameFrag1 (seq : BitVec 5)
  /-- FRAME_FRAG2, `sssss101` (R126). -/
  | frameFrag2 (seq : BitVec 5)
  /-- FRAME_FRAG3, `sssss111` (R127). -/
  | frameFrag3 (seq : BitVec 5)
  /-- RSP_OK, `ccc0` (40_packet_fragmenter.md R108; 30_encoding.md R77). -/
  | rspOk (count : BitVec 3)
  /-- RSP_OVERSIZE, `0001` (60_exceptions.md R160). -/
  | rspOversize
  deriving DecidableEq, Repr

end Sys2Proof
end

