-- ==== Sys2Proof/WellFormed.lean ====
section
/-! DEFINITION. Which operations exist: a request REQ can carry (10_state.md R21), a response word the
block can produce (30_encoding.md R77, R82). A frame kind's five SEQ bits are all legal (R71). -/

namespace Sys2Proof

/-- `req.len` always equals `|req.input|`, and both number fields fit their widths (10_state.md R21;
00_scope.md R6, R7). -/
def Request.wf (c : Config) (r : Request) : Bool :=
  decide (r.len = r.input.length) && decide (r.len < 2 ^ c.lenBits) && decide (r.seq < 2 ^ c.seqBits)

/-- An OK response counts 1 to 4 frames; `0, 5, 6, 7` are never produced (30_encoding.md R77, R82). -/
def Instr.wf (c : Config) : Instr → Bool
  | .fragment r => r.wf c
  | .frameSingle _ => true
  | .frameFrag0 _ => true
  | .frameFrag1 _ => true
  | .frameFrag2 _ => true
  | .frameFrag3 _ => true
  | .rspOk n => decide (1 ≤ n.toNat) && decide (n.toNat ≤ 4)
  | .rspOversize => true

end Sys2Proof
end

