-- ==== Sys2Proof/Decode.lean ====
section
/-! DEFINITION. The decoder of the channel words (30_encoding.md R76 to R78, R80, R82), total and
rejecting by name, and the encoder written from the same tables. -/

namespace Sys2Proof

/-- What a channel carries when an operation is read from it: the parallel fields of a request (it has
no opcode, R76), the `flags` byte of a frame (R71), the 4-bit word of a response (R77). -/
inductive ChannelWord where
  | req (r : Request)
  | frm (flags : Byte)
  | rsp (word : BitVec 4)
  deriving DecidableEq, Repr

/-- Why a word is no operation. -/
inductive DecodeError where
  /-- `flags[2:0]` in `010, 100, 110` (30_encoding.md R80). -/
  | reservedFlags (flags : Byte)
  /-- A response word other than the five of R77 (30_encoding.md R82). -/
  | reservedResponse (word : BitVec 4)
  deriving DecidableEq, Repr

/-- The `SEQ` field, `flags[7:3]` (30_encoding.md R71). -/
def seqField (flags : Byte) : BitVec 5 := flags.extractLsb' 3 5

/-- The bits that select the frame kind, `flags[2:0]` (30_encoding.md R78). -/
def kindField (flags : Byte) : BitVec 3 := flags.extractLsb' 0 3

/-- The frame kind of a `flags` byte (30_encoding.md R78). -/
def decodeFlags (flags : Byte) : Except DecodeError Instr :=
  if kindField flags = 0b000#3 then .ok (.frameSingle (seqField flags))
  else if kindField flags = 0b001#3 then .ok (.frameFrag0 (seqField flags))
  else if kindField flags = 0b011#3 then .ok (.frameFrag1 (seqField flags))
  else if kindField flags = 0b101#3 then .ok (.frameFrag2 (seqField flags))
  else if kindField flags = 0b111#3 then .ok (.frameFrag3 (seqField flags))
  else .error (.reservedFlags flags)

/-- `rsp[3:1]`, the count of a response word (30_encoding.md R77). -/
def countField (word : BitVec 4) : BitVec 3 := word.extractLsb' 1 3

/-- The response of a 4-bit word: the five words of 30_encoding.md R77 and no other (R82). -/
def decodeResponse (word : BitVec 4) : Except DecodeError Instr :=
  if word.getLsbD 0 then
    if countField word = 0#3 then .ok .rspOversize else .error (.reservedResponse word)
  else
    if 1 ≤ (countField word).toNat ∧ (countField word).toNat ≤ 4 then .ok (.rspOk (countField word))
    else .error (.reservedResponse word)

/-- The decoder. Every request decodes as FRAGMENT: mask 0, match 0 (30_encoding.md R76). -/
def decode : ChannelWord → Except DecodeError Instr
  | .req r => .ok (.fragment r)
  | .frm b => decodeFlags b
  | .rsp w => decodeResponse w

/-- The encoder, from the encoding column of the opcode table. -/
def encode : Instr → ChannelWord
  | .fragment r => .req r
  | .frameSingle s => .frm (s ++ 0b000#3)
  | .frameFrag0 s => .frm (s ++ 0b001#3)
  | .frameFrag1 s => .frm (s ++ 0b011#3)
  | .frameFrag2 s => .frm (s ++ 0b101#3)
  | .frameFrag3 s => .frm (s ++ 0b111#3)
  | .rspOk n => .rsp (n ++ 0b0#1)
  | .rspOversize => .rsp 0b0001#4

/-- The request that a bare number stands for in `decodeTableWord`: no input byte, `seq` the number's
low five bits. DESIGN CHOICE (log 12): a request has no word of its own (30_encoding.md R76). -/
def requestOfWord (w : Nat) : Request := ⟨[], 0, w % 32⟩

/-- The operation whose word's bits are `w`, as the opcode table numbers them. The table's rows stand
for words of three channels, and a number does not say its channel. DESIGN CHOICE (log 12): 1 to 4
bits are a response word, 5 to 8 bits a `flags` byte and, where no frame kind matches, a response word;
any other width is a request. -/
def decodeTableWord (nbits w : Nat) : Option Instr :=
  if nbits = 0 ∨ 8 < nbits then some (.fragment (requestOfWord w))
  else if nbits ≤ 4 then (decode (.rsp (BitVec.ofNat 4 w))).toOption
  else
    match decode (.frm (BitVec.ofNat 8 w)) with
    | .ok i => some i
    | .error _ => if w < 16 then (decode (.rsp (BitVec.ofNat 4 w))).toOption else none

end Sys2Proof
end

