-- ==== Sys2Proof/Machine/State.lean ====
section
/-! DEFINITION. The state of the block and of the agents around it (10_state.md R20 to R31), and the
reset values (10_state.md R37). Plain data. -/

namespace Sys2Proof.Machine

/-- The latched input as (offset, byte) cells: the block's only address space (20_memory.md R50). -/
abbrev Memory := List Host.Cell

/-- Why the machine stops with a fault. Each marks a state the rules prove unreachable
(60_exceptions.md R164), so each is safe. -/
inductive Fault where
  /-- `phase = 0b11` (10_state.md R25). Raised by every step and operation in that phase. Safe. -/
  | invariantPhase
  /-- A register that reset leaves unspecified is read before ACCEPT wrote it (10_state.md R38). Raised
  in EMIT and RESP. Safe. -/
  | invariantUnwritten
  /-- The bound `k < nfr <= 4`, or `frag = 1` exactly when `nfr >= 2`, fails at a frame offer
  (40_packet_fragmenter.md R111; 41_payload_slicer_metadata_encoder.md R133). Raised in EMIT. Safe. -/
  | invariantFrameBound
  /-- The frame on offer needs a chunk outside `slice`'s domain or an input offset outside `0..L-1`
  (20_memory.md R50; 41_payload_slicer_metadata_encoder.md R128; log 7). Raised in EMIT. Safe. -/
  | inputRange
  deriving DecidableEq, Repr

/-- Why the machine gives no meaning. -/
inductive Refusal where
  /-- No meaning written. No arm of `exec` answers with it. Safe. -/
  | notModelled (mnemonic : String)
  /-- The configuration does not exist (60_exceptions.md R173). Raised by every step and operation. Safe. -/
  | configRefused
  /-- A request that REQ's fields cannot carry (10_state.md R21; log 9). Raised by FRAGMENT. Safe. -/
  | requestNotPresentable
  /-- The word on offer is one that no row of the opcode table decodes and that the block never produces
  (30_encoding.md R80, R82; log 10). Raised by `step`. Safe. -/
  | neverProducedWord
  deriving DecidableEq, Repr

/-- One atomic step of the agents around the block, or the block's turn (10_state.md R20; log 4). -/
inductive Move where
  /-- The caller adds a request to those it presents, one after another (10_state.md R21). -/
  | present (r : Request)
  /-- The sink drives `frm_ready` (10_state.md R22). -/
  | sinkReady (ready : Bool)
  /-- The caller drives `rsp_ready` (10_state.md R23). -/
  | callerReady (ready : Bool)
  /-- Reset is asserted (70_reset_and_hazards.md R180). -/
  | assertReset
  /-- The block's turn: the one transfer it is ready for takes place, if its receiver accepts. -/
  | run
  deriving DecidableEq, Repr

/-- The machine: parameters, the block's registers, the channels' input side, the other agents'
schedule and the observation. -/
structure State where
  /-- `C`, `LEN_BITS`, `SEQ_BITS` (00_scope.md R5 to R7). No step changes them (10_state.md R34). -/
  cfg : Config
  /-- `phase`, the sequencing position (10_state.md R25). -/
  phase : BitVec 2
  /-- `in_buf`, the snapshot of the call's input (10_state.md R26). -/
  inBuf : Memory
  /-- `L`, the length of the call's input (10_state.md R26). -/
  len : Nat
  /-- `tag`, the call's sequence tag in place (10_state.md R27). -/
  tag : Byte
  /-- `frag`, the fragmentation flag; `true` is 1 (10_state.md R28). -/
  frag : Bool
  /-- `nfr`, the number of frames of the call (10_state.md R29). -/
  nfr : BitVec 3
  /-- `k`, the number of frames already transferred (10_state.md R30). -/
  k : BitVec 3
  /-- `status`, the response status; `true` is 1, OVERSIZE (10_state.md R31). -/
  status : Bool
  /-- The model's own bit: ACCEPT has written the unspecified registers since reset (10_state.md R38; log 3). -/
  written : Bool
  /-- The caller's requests not yet transferred; the head is on offer on REQ (10_state.md R21, R24; log 5). -/
  pending : List Request
  /-- `frm_ready`, driven by the sink (10_state.md R22). -/
  frmReady : Bool
  /-- `rsp_ready`, driven by the caller (10_state.md R23). -/
  rspReady : Bool
  /-- The reset line (70_reset_and_hazards.md R180). -/
  rst : Bool
  /-- The moves of the other agents still to come (10_state.md R20; log 4). -/
  env : List Move
  /-- The transfers on FRM and RSP so far, oldest first (92_eei_decisions.md D22). -/
  obs : List Transfer
  /-- The model's own counter for the free values (log 11). -/
  draw : Nat
  deriving DecidableEq, Repr

/-- IDLE (10_state.md R25). -/
def phaseIdle : BitVec 2 := 0b00#2
/-- EMIT (10_state.md R25). -/
def phaseEmit : BitVec 2 := 0b01#2
/-- RESP (10_state.md R25). -/
def phaseResp : BitVec 2 := 0b10#2
/-- The value of `phase` that no rule gives a meaning (10_state.md R25). -/
def phaseNone : BitVec 2 := 0b11#2

/-- The block just after reset under a configuration, with silent agents around it (10_state.md R37).
The registers R37 leaves unspecified are zero. DESIGN CHOICE (log 2). -/
def State.resetWith (c : Config) : State where
  cfg := c
  phase := phaseIdle
  inBuf := []
  len := 0
  tag := 0#8
  frag := false
  nfr := 0#3
  k := 0#3
  status := false
  written := false
  pending := []
  frmReady := false
  rspReady := false
  rst := false
  env := []
  obs := []
  draw := 0

/-- The machine right after reset, for the examples' configuration (log 1). -/
def State.reset : State := State.resetWith Config.ofExamples

end Sys2Proof.Machine
end

