-- ==== Sys2Proof/Machine/Operands.lean ====
section
/-! DEFINITION. payload_slicer_with_metadata_encoder, the slicer and the tag
(41_payload_slicer_metadata_encoder.md R120, R128 to R130). Exact arithmetic on naturals. -/

namespace Sys2Proof.Machine

/-- `seq_tag(seq) = (seq & 0x1F) << 3` (R120). -/
def seqTag (seq : Nat) : Byte := BitVec.ofNat 8 ((seq &&& 0x1F) <<< 3)

/-- The request field of a software caller's counter: a negative counter is presented as its
two's-complement bits (R120). -/
def presentedSeq (c : Config) (counter : Int) : Nat := (counter % (2 ^ c.seqBits : Nat)).toNat

/-- The request a caller presents for a buffer and its counter (10_state.md R21). -/
def requestOf (c : Config) (input : List Byte) (counter : Int) : Request :=
  ⟨input, input.length, presentedSeq c counter⟩

/-- `ceil(L / C) = (L + C - 1) div C` (R130). -/
def ceilDiv (L C : Nat) : Nat := (L + C - 1) / C

/-- `nframes(L, C)` (R129). -/
def nframes (L C : Nat) : Nat :=
  if 4 * C < L then 0
  else if L ≤ C then 1
  else ceilDiv L C

/-- `slice(L, C, i)`: offset and length of chunk `i`, defined for `i < nframes(L, C)` only (R128). -/
def slice (L C i : Nat) : Option (Nat × Nat) :=
  if i < nframes L C then some (i * C, min C (L - i * C)) else none

end Sys2Proof.Machine
end

