-- ==== Sys2Proof/Machine/Flags.lean ====
section
/-! DEFINITION. payload_slicer_with_metadata_encoder, the `flags` byte of each frame kind
(30_encoding.md R71, R79; 41_payload_slicer_metadata_encoder.md R123 to R127, R133). -/

namespace Sys2Proof.Machine

/-- The `flags` byte as the OR of its three fields (30_encoding.md R79). -/
def assembleFlags (frag : BitVec 1) (idx : BitVec 2) (seq : BitVec 5) : Byte :=
  frag.zeroExtend 8 ||| (idx.zeroExtend 8 <<< 1) ||| (seq.zeroExtend 8 <<< 3)

/-- `flags_single(t) = t` (R123). -/
def flagsSingle (t : Byte) : Byte := t

/-- `flags_frag(i, t) = 0x01 | (i << 1) | t`, defined for `i` in `0..3` only (R124 to R127, R133). -/
def flagsFrag (i : Nat) (t : Byte) : Option Byte :=
  if i < 4 then some (0x01#8 ||| BitVec.ofNat 8 (i <<< 1) ||| t) else none

/-- `flags_of(frag, k, t)` of 40_packet_fragmenter.md R106: `flags_of(0, 0, t) = flags_single(t)` and
`flags_of(1, k, t) = flags_frag(k, t)`. -/
def flagsOf (frag : Bool) (k : Nat) (t : Byte) : Option Byte :=
  if frag then flagsFrag k t else if k = 0 then some (flagsSingle t) else none

end Sys2Proof.Machine
end

