-- ==== Sys2Proof/Machine/Compose.lean ====
section
/-! DEFINITION. The input space (20_memory.md R50) and frame_composer (42_frame_composer.md R140). -/

namespace Sys2Proof.Machine

/-- The cells of a byte sequence laid out from offset `a` up. -/
def Memory.ofBytesFrom (a : Nat) : List Byte → Memory
  | [] => []
  | b :: bs => (a, b) :: Memory.ofBytesFrom (a + 1) bs

/-- The snapshot of an input buffer, offsets `0..L-1` (10_state.md R26). -/
def Memory.ofBytes (bs : List Byte) : Memory := Memory.ofBytesFrom 0 bs

/-- The bytes of a snapshot in offset order. -/
def Memory.bytes (m : Memory) : List Byte := m.map Prod.snd

/-- What an offset with no cell reads as: no value (20_memory.md R50; log 20). -/
def Memory.unlisted : Option Byte := none

/-- `MemRead(a, 1)` (20_memory.md R50). -/
def Memory.read : Memory → Nat → Option Byte
  | [], _ => Memory.unlisted
  | c :: m, a => if c.1 = a then some c.2 else Memory.read m a

/-- The canonical form: offsets strictly rising. No cell can equal an unlisted offset, which reads as
no value. -/
abbrev Memory.wf (m : Memory) : Prop := m.Pairwise (fun x y => x.1 < y.1)

/-- Payload bytes `j`, `j+1`, … of a frame, `n` of them: byte `j` of the chunk while `j < len`, then
zero (42_frame_composer.md R140 to R142). -/
def payloadFrom (m : Memory) (off len : Nat) : Nat → Nat → Option (List Byte)
  | _, 0 => some []
  | j, n + 1 =>
    match (if j < len then m.read (off + j) else some 0x00#8), payloadFrom m off len (j + 1) n with
    | some b, some bs => some (b :: bs)
    | _, _ => none

/-- `compose(in, off, len, fl)` for capacity `cap` (42_frame_composer.md R140, R143, R144). -/
def compose (m : Memory) (cap off len : Nat) (fl : Byte) : Option Frame :=
  match payloadFrom m off len 0 cap with
  | some p => some ⟨BitVec.ofNat 8 len, fl, p⟩
  | none => none

end Sys2Proof.Machine
end

