-- ==== Sys2Proof/Machine/Ops.lean ====
section
/-! DEFINITION. The shared operations of the step machine (40_packet_fragmenter.md R105 to R109):
what is on offer, the model's checks, the oversize error and its return, the transfers and reset. -/

namespace Sys2Proof.Machine

/-- What an operation or a step answers. -/
abbrev Answer := Host.Outcome State Fault Refusal

/-- `req_ready` (10_state.md R25). -/
def State.reqReady (s : State) : Bool := decide (s.phase = phaseIdle)

/-- `frm_valid` (10_state.md R25). -/
def State.frmValid (s : State) : Bool := decide (s.phase = phaseEmit) && decide (s.k < s.nfr)

/-- `rsp_valid` (10_state.md R25). -/
def State.rspValid (s : State) : Bool := decide (s.phase = phaseResp)

/-- The frame on offer in EMIT (40_packet_fragmenter.md R106), a function of the registers alone
(42_frame_composer.md R147). `none` where a rule it uses is not defined. -/
def State.frameOnOffer (s : State) : Option Frame :=
  match flagsOf s.frag s.k.toNat s.tag, slice s.len s.cfg.cap s.k.toNat with
  | some fl, some ol => compose s.inBuf s.cfg.cap ol.1 ol.2 fl
  | _, _ => none

/-- The response on offer in RESP: `rsp.status = status`, `rsp.count = nfr` (40_packet_fragmenter.md R108). -/
def State.responseOnOffer (s : State) : Response := ⟨s.status, s.nfr⟩

/-- The 4-bit word of a response, `rsp[0] = status`, `rsp[3:1] = count` (30_encoding.md R77). -/
def responseWord (r : Response) : BitVec 4 := r.count ++ BitVec.ofBool r.status

/-- The invariant checked at every frame offer (40_packet_fragmenter.md R111). -/
def State.frameBound (s : State) : Bool :=
  decide (s.k < s.nfr) && decide (s.nfr.toNat ≤ 4) && decide (s.frag = decide (2 ≤ s.nfr.toNat))

/-- The model fault of a state, if it is one that the rules prove unreachable (60_exceptions.md R164;
logs 3, 6, 7). -/
def State.modelFault (s : State) : Option Fault :=
  if s.phase = phaseNone then some .invariantPhase
  else if s.phase = phaseIdle then none
  else if s.written = false then some .invariantUnwritten
  else if s.phase = phaseResp then none
  else if s.frameBound = false then some .invariantFrameBound
  else if s.frameOnOffer.isNone then some .inputRange
  else none

/-- Every operation and every step first asks that the block exists (60_exceptions.md R173) and that its
state is none of the unreachable ones, whose fault no later step clears (R164; log 6). -/
def guarded (s : State) (go : Answer) : Answer :=
  if s.cfg.legal then
    match s.modelFault with
    | some f => .fault f
    | none => go
  else .refused .configRefused

/-- Latching a request: `in_buf`, `L` and `tag` (40_packet_fragmenter.md R105; 10_state.md R26, R27). -/
def State.latchRequest (s : State) (r : Request) : State :=
  { s with
    inBuf := Memory.ofBytes r.input
    len := r.input.length
    tag := seqTag r.seq
    k := 0#3
    written := true
    pending := s.pending.tail }

/-- `raise Oversize(L)`: the block's one error. It saves nothing, masks nothing and goes to no vector;
the response reports it (60_exceptions.md R160, R161, R165; 40_packet_fragmenter.md R105). -/
def State.raiseOversize (s : State) : State :=
  { s with status := true, nfr := 0#3, frag := false, phase := phaseResp }

/-- The single-frame path (40_packet_fragmenter.md R102, R105). -/
def State.startSingle (s : State) : State :=
  { s with status := false, nfr := 1#3, frag := false, phase := phaseEmit }

/-- The fragmented path (40_packet_fragmenter.md R103, R105). -/
def State.startFragmented (s : State) : State :=
  { s with
    status := false
    nfr := BitVec.ofNat 3 (nframes s.len s.cfg.cap)
    frag := true
    phase := phaseEmit }

/-- The three paths in the order oversize, single-frame, fragmented, on the exact length
(40_packet_fragmenter.md R104; 41_payload_slicer_metadata_encoder.md R130). -/
def State.choosePath (s : State) : State :=
  if 4 * s.cfg.cap < s.len then s.raiseOversize
  else if s.len ≤ s.cfg.cap then s.startSingle
  else s.startFragmented

/-- The state after a frame transfer: EMIT again, or RESP after the call's last frame
(40_packet_fragmenter.md R106, R107). -/
def State.afterFrame (s : State) (f : Frame) : State :=
  { s with
    k := s.k + 1#3
    phase := if s.k + 1#3 = s.nfr then phaseResp else phaseEmit
    obs := s.obs ++ [.frm f] }

/-- The state after the response transfer, which ends a call and is the return from an error
(40_packet_fragmenter.md R108; 60_exceptions.md R166). -/
def State.afterResponse (s : State) : State :=
  { s with phase := phaseIdle, obs := s.obs ++ [.rsp s.responseOnOffer] }

/-- ACCEPT: the transfer of request `r`, if the block is ready and the caller offers `r`; else nothing
happens and an offered request stays on offer (40_packet_fragmenter.md R105, R109; logs 8, 9). -/
def acceptRequest (r : Request) (s : State) : Answer :=
  guarded s
    (if s.phase = phaseIdle ∧ s.pending.head? = some r then
      if r.wf s.cfg then .next (s.latchRequest r).choosePath else .refused .requestNotPresentable
    else .next s)

/-- EMIT: the transfer of the frame on offer, if its `flags` byte is `fl` and the sink accepts; else
nothing happens and the frame stays on offer (40_packet_fragmenter.md R106, R107; 10_state.md R24; log 8). -/
def takeFrame (fl : Byte) (s : State) : Answer :=
  guarded s
    (if s.phase = phaseEmit ∧ s.frmReady = true then
      match s.frameOnOffer with
      | some f => if f.flags = fl then .next (s.afterFrame f) else .next s
      | none => .fault .inputRange
    else .next s)

/-- RESPOND: the transfer of the response on offer, if its word is `w` and the caller accepts; else
nothing happens (40_packet_fragmenter.md R108; 10_state.md R24; log 8). -/
def takeResponse (w : BitVec 4) (s : State) : Answer :=
  guarded s
    (if s.phase = phaseResp ∧ s.rspReady = true ∧ responseWord s.responseOnOffer = w then
      .next s.afterResponse
    else .next s)

/-- The word of the transfer that can take place now: offered by the sender and accepted by the
receiver (10_state.md R24). At most one channel has one (60_exceptions.md R168). -/
def State.fetchWord (s : State) : Option ChannelWord :=
  if s.phase = phaseIdle then s.pending.head?.map .req
  else if s.phase = phaseEmit then
    if s.frmReady then s.frameOnOffer.map (fun f => .frm f.flags) else none
  else if s.phase = phaseResp then
    if s.rspReady then some (.rsp (responseWord s.responseOnOffer)) else none
  else none

/-- What the block reads from its channels now: nothing, an operation, or a word no row decodes (log 10). -/
def State.fetch (s : State) : Option (Except DecodeError Instr) := s.fetchWord.map decode

/-- Every step draws once for the free values (log 11). -/
def State.tick (s : State) : State := { s with draw := s.draw + 1 }

/-- The reset step: the block takes its reset values, a call in progress is abandoned, frames already
transferred stay transferred, a request on offer is not taken, and the other agents are untouched
(10_state.md R37; 70_reset_and_hazards.md R180; logs 2, 19). -/
def State.resetBlock (s : State) : State :=
  { State.resetWith s.cfg with
    pending := s.pending
    frmReady := s.frmReady
    rspReady := s.rspReady
    env := s.env
    obs := s.obs
    draw := s.draw }

/-- A move of another agent (10_state.md R20; logs 4, 5). -/
def State.applyMove (s : State) : Move → State
  | .present r => { s with pending := s.pending ++ [r] }
  | .sinkReady b => { s with frmReady := b }
  | .callerReady b => { s with rspReady := b }
  | .assertReset => { s with rst := true }
  | .run => s

/-- The schedule without its next move. -/
def State.popMove (s : State) : State := { s with env := s.env.tail }

/-- Who moves in a step: another agent or reset, with the state it leaves, or the block, with the state
it moves from. -/
inductive Turn where
  | others (s : State)
  | block (s : State)
  deriving DecidableEq, Repr

/-- Who moves next. An asserted reset takes priority over everything (70_reset_and_hazards.md R180; log
6 for the one thing before it); else the schedule's next move takes place; a schedule that has run out
leaves the block its turns (log 4). -/
def State.turn (s : State) : Turn :=
  if s.rst then .others s.tick.resetBlock
  else
    match s.env with
    | [] => .block s.tick
    | .run :: _ => .block s.tick.popMove
    | m :: _ => .others (s.tick.popMove.applyMove m)

/-- The output side of the channels (10_state.md R21 to R23). -/
structure Outputs where
  reqReady : Bool
  frmValid : Bool
  frm      : Frame
  rspValid : Bool
  rsp      : Response
  deriving DecidableEq, Repr

/-- The frame bus while no frame is offered: any value (93_implementation_defined.md I9; log 11). -/
def freeFrame (c : Config) (draw : Nat) : Frame :=
  ⟨Config.freeLength draw, Config.freeFlags draw, (List.range c.cap).map (Config.freePayload draw)⟩

/-- The response bus while no response is offered: any value (93_implementation_defined.md I9; log 11). -/
def freeResponse (draw : Nat) : Response := ⟨Config.freeStatus draw, Config.freeCount draw⟩

/-- What the block drives on its channels (10_state.md R25; 40_packet_fragmenter.md R106, R108). -/
def State.outputs (s : State) : Outputs where
  reqReady := s.reqReady
  frmValid := s.frmValid
  frm := if s.frmValid then s.frameOnOffer.getD (freeFrame s.cfg s.draw) else freeFrame s.cfg s.draw
  rspValid := s.rspValid
  rsp := if s.rspValid then s.responseOnOffer else freeResponse s.draw

end Sys2Proof.Machine
end

