-- ==== Sys2Proof/Machine/Frames.lean ====
section
/-! DEFINITION. The meanings of the five frame kinds: the transfer of the frame on offer whose `flags`
byte is the kind's (41_payload_slicer_metadata_encoder.md R123 to R127; 40_packet_fragmenter.md R106, R107). -/

namespace Sys2Proof.Machine

/-- FRAME_SINGLE: FRAG 0, IDX 0 (R123). -/
def execFrameSingle (seq : BitVec 5) (s : State) : Answer := takeFrame (assembleFlags 0 0 seq) s

/-- FRAME_FRAG0: FRAG 1, IDX 0 (R124). -/
def execFrameFrag0 (seq : BitVec 5) (s : State) : Answer := takeFrame (assembleFlags 1 0 seq) s

/-- FRAME_FRAG1: FRAG 1, IDX 1 (R125). -/
def execFrameFrag1 (seq : BitVec 5) (s : State) : Answer := takeFrame (assembleFlags 1 1 seq) s

/-- FRAME_FRAG2: FRAG 1, IDX 2 (R126). -/
def execFrameFrag2 (seq : BitVec 5) (s : State) : Answer := takeFrame (assembleFlags 1 2 seq) s

/-- FRAME_FRAG3: FRAG 1, IDX 3 (R127). -/
def execFrameFrag3 (seq : BitVec 5) (s : State) : Answer := takeFrame (assembleFlags 1 3 seq) s

end Sys2Proof.Machine
end

