-- ==== Sys2Proof/Machine/Request.lean ====
section
/-! DEFINITION. The meaning of FRAGMENT, the request transfer (40_packet_fragmenter.md R100, R105). -/

namespace Sys2Proof.Machine

/-- FRAGMENT (40_packet_fragmenter.md R100, R105). -/
def execFragment (r : Request) (s : State) : Answer := acceptRequest r s

end Sys2Proof.Machine
end

