-- ==== Sys2Proof/Machine/Responses.lean ====
section
/-! DEFINITION. The meanings of the two responses: the transfer of the response on offer
(40_packet_fragmenter.md R108; 30_encoding.md R77). -/

namespace Sys2Proof.Machine

/-- RSP_OK with a frame count (40_packet_fragmenter.md R108). -/
def execRspOk (count : BitVec 3) (s : State) : Answer := takeResponse (responseWord ⟨false, count⟩) s

/-- RSP_OVERSIZE, which reports the error and returns from it (60_exceptions.md R160, R161, R166). -/
def execRspOversize (s : State) : Answer := takeResponse (responseWord ⟨true, 0#3⟩) s

end Sys2Proof.Machine
end

