-- ==== Sys2Proof/Machine/Dispatch.lean ====
section
/-! DEFINITION. One arm per operation of the opcode table. -/

namespace Sys2Proof.Machine

def exec (i : Instr) (s : State) : Host.Outcome State Fault Refusal :=
  match i with
  | .fragment r => Sys2Proof.Machine.execFragment r s
  | .frameSingle q => Sys2Proof.Machine.execFrameSingle q s
  | .frameFrag0 q => Sys2Proof.Machine.execFrameFrag0 q s
  | .frameFrag1 q => Sys2Proof.Machine.execFrameFrag1 q s
  | .frameFrag2 q => Sys2Proof.Machine.execFrameFrag2 q s
  | .frameFrag3 q => Sys2Proof.Machine.execFrameFrag3 q s
  | .rspOk n => Sys2Proof.Machine.execRspOk n s
  | .rspOversize => Sys2Proof.Machine.execRspOversize s

end Sys2Proof.Machine
end

