-- ==== Sys2Proof/Machine/Reference.lean ====
section
/-! DEFINITION. The functional definition `fragment(in, seq, C)` (40_packet_fragmenter.md R100 to R104),
written on its own from the algorithm's words and not from the step machine. -/

namespace Sys2Proof.Machine

/-- What one call gives (40_packet_fragmenter.md R100). -/
inductive CallResult where
  /-- The call's frames in order; the response is `(OK, n)`. -/
  | frames (fs : List Frame)
  /-- `raise Oversize(L)`: no frame; the response is `(OVERSIZE, 0)`. -/
  | oversize (L : Nat)
  deriving DecidableEq, Repr

/-- The frame of chunk `i`: "chunk bytes followed by zero padding to length C"
(40_packet_fragmenter.md R102, R103; 42_frame_composer.md R141, R142). -/
def chunkFrame (input : List Byte) (cap i : Nat) (fl : Byte) : Frame :=
  let chunk := (input.drop (i * cap)).take cap
  ⟨BitVec.ofNat 8 chunk.length, fl, chunk ++ zeros (cap - chunk.length)⟩

/-- The frames of a call whose tag is `t`: none when oversize (R101), one on the single-frame path
(R102), `ceil(L / C)` on the fragmented path (R103). -/
def callFrames (input : List Byte) (t : Byte) (cap : Nat) : List Frame :=
  if 4 * cap < input.length then []
  else if input.length ≤ cap then [chunkFrame input cap 0 t]
  else (List.range (ceilDiv input.length cap)).map
    (fun i => chunkFrame input cap i (0x01#8 ||| BitVec.ofNat 8 (2 * i) ||| t))

/-- `fragment(in, seq, C)` (40_packet_fragmenter.md R100). -/
def fragmentCall (input : List Byte) (seq cap : Nat) : CallResult :=
  if 4 * cap < input.length then .oversize input.length
  else .frames (callFrames input (seqTag seq) cap)

/-- The response of a call (40_packet_fragmenter.md R100, R110). -/
def CallResult.response : CallResult → Response
  | .frames fs => ⟨false, BitVec.ofNat 3 fs.length⟩
  | .oversize _ => ⟨true, 0#3⟩

/-- The transfers of a call in order: its frames, then its response (40_packet_fragmenter.md R110). -/
def CallResult.transfers (c : CallResult) : List Transfer :=
  (match c with
   | .frames fs => fs.map .frm
   | .oversize _ => []) ++ [.rsp c.response]

/-- The result of a program, a list of requests presented one after another on one block: the frames
and responses transferred, in order (30_encoding.md R83). -/
def programTransfers (cap : Nat) (reqs : List Request) : List Transfer :=
  reqs.flatMap (fun r => (fragmentCall r.input r.seq cap).transfers)

end Sys2Proof.Machine
end

