-- ==== Sys2Proof/Machine/Text.lean ====
section
/-! DEFINITION. The text notation of requests, frames and responses (30_encoding.md R83). It has no
effect on behaviour (92_eei_decisions.md D14). -/

namespace Sys2Proof.Machine

/-- The `bytes` forms of the grammar. -/
inductive BytesExpr where
  | literal (bs : List Byte)
  | zeros (n : Nat)
  | ramp (n : Nat)
  | fill (n : Nat) (b : Byte)
  | append (x y : BytesExpr)
  deriving DecidableEq, Repr

/-- The bytes a form abbreviates. -/
def BytesExpr.eval : BytesExpr → List Byte
  | .literal bs => bs
  | .zeros n => Sys2Proof.zeros n
  | .ramp n => (List.range n).map (fun j => BitVec.ofNat 8 (j % 256))
  | .fill n b => List.replicate n b
  | .append x y => x.eval ++ y.eval

/-- One hexadecimal digit, upper case. -/
def hexDigit (n : Nat) : String :=
  ["0", "1", "2", "3", "4", "5", "6", "7", "8", "9", "A", "B", "C", "D", "E", "F"].getD (n % 16) "0"

/-- `hex8`: two hex digits. -/
def hex8 (b : Byte) : String := hexDigit (b.toNat / 16) ++ hexDigit b.toNat

/-- A literal byte list. -/
def renderBytes (bs : List Byte) : String := "[" ++ String.intercalate " " (bs.map hex8) ++ "]"

/-- A request in the notation. -/
def renderRequest (r : Request) : String :=
  "FRAGMENT seq=" ++ toString r.seq ++ " in=" ++ renderBytes r.input

/-- A frame in the notation. -/
def renderFrame (f : Frame) : String :=
  "FRAME len=" ++ toString f.length.toNat ++ " flags=0x" ++ hex8 f.flags ++ " payload=" ++ renderBytes f.payload

/-- A response in the notation. -/
def renderResponse (r : Response) : String :=
  "RSP status=" ++ (if r.status then "OVERSIZE" else "OK") ++ " count=" ++ toString r.count.toNat

/-- A frame written in the notation: a payload shorter than `C` bytes goes on with zeros. -/
def writtenFrame (cap len : Nat) (fl : Byte) (bs : List Byte) : Frame :=
  ⟨BitVec.ofNat 8 len, fl, bs ++ Sys2Proof.zeros (cap - bs.length)⟩

/-- A program on a block after reset, with a caller and a sink that take every item at once: the caller
presents the requests one after another (30_encoding.md R83; log 13). -/
def State.ofProgram (c : Config) (reqs : List Request) : State :=
  { State.resetWith c with pending := reqs, frmReady := true, rspReady := true }

end Sys2Proof.Machine
end

