-- ==== Sys2Proof/Machine/Place.lean ====
section
/-! DEFINITION. Placing an operation as the next one the block runs, from any state (log 13). -/

namespace Sys2Proof.Machine

/-- The agents let the block move next: no reset is asserted and the schedule gives the block its turn. -/
def State.giveTurn (s : State) : State := { s with rst := false, env := .run :: s.env }

/-- A call whose frame `i` is on offer to a ready sink: an input of `len` zero bytes with tag `seq`. -/
def State.placeFrame (s : State) (seq : BitVec 5) (frag : Bool) (i len : Nat) : State :=
  { s.giveTurn with
    phase := phaseEmit
    inBuf := Memory.ofBytes (zeros len)
    len := len
    tag := seqTag seq.toNat
    frag := frag
    nfr := BitVec.ofNat 3 (nframes len s.cfg.cap)
    k := BitVec.ofNat 3 i
    status := false
    written := true
    frmReady := true }

/-- A call whose response is on offer to a ready caller. -/
def State.placeResponse (s : State) (status : Bool) (count : BitVec 3) : State :=
  { s.giveTurn with
    phase := phaseResp, status := status, nfr := count, k := count, written := true, rspReady := true }

/-- `s` with what it takes for the next step to run `i`: a request is put on offer to an idle block; a
frame kind gets the shortest call that has it; a response gets a call that ends in it. -/
def State.place (s : State) : Instr → State
  | .fragment r => { s.giveTurn with phase := phaseIdle, pending := r :: s.pending }
  | .frameSingle q => s.placeFrame q false 0 0
  | .frameFrag0 q => s.placeFrame q true 0 (s.cfg.cap + 1)
  | .frameFrag1 q => s.placeFrame q true 1 (s.cfg.cap + 1)
  | .frameFrag2 q => s.placeFrame q true 2 (2 * s.cfg.cap + 1)
  | .frameFrag3 q => s.placeFrame q true 3 (3 * s.cfg.cap + 1)
  | .rspOk n => s.placeResponse false n
  | .rspOversize => s.placeResponse true 0#3

end Sys2Proof.Machine
end

