-- ==== Sys2Proof/Machine/Step.lean ====
section
/-! DEFINITION. One atomic step of the machine (10_state.md R20; 70_reset_and_hazards.md R180). -/

namespace Sys2Proof.Machine

/-- The block's turn: the transfer the channels allow is run; where they allow none, the block waits
(10_state.md R24; 70_reset_and_hazards.md R187; logs 10, 16). -/
def runBlock (s : State) : Answer :=
  match s.fetch with
  | none => .next s
  | some (.ok i) => exec i s
  | some (.error _) => .refused .neverProducedWord

/-- One step: the model's checks, then the turn of whoever moves next. -/
def step (s : State) : Host.Outcome State Fault Refusal :=
  guarded s
    (match s.turn with
    | .others t => .next t
    | .block t => runBlock t)

/-- `s` with the operation of a table word placed as the next one the step runs (log 13). -/
def State.withFetchWord (s : State) (nbits w : Nat) : State :=
  match decodeTableWord nbits w with
  | some i => s.place i
  | none => s

end Sys2Proof.Machine
end

