-- ==== Sys2Proof/Safety.lean ====
section
/-! DEFINITION. What a safe state is, in the terms the statements use: the invariant every step keeps,
the stuck and the finished states (60_exceptions.md R164; 70_reset_and_hazards.md R187). -/

namespace Sys2Proof.Machine

/-- The block exists and its state is none of those that fault (60_exceptions.md R164, R173). -/
abbrev State.Sound (s : State) : Prop := s.cfg.legal = true ∧ s.modelFault = none

/-- The snapshot holds exactly the offsets `0..L-1`, and `L` fits its register (10_state.md R26). -/
abbrev State.BufferWf (s : State) : Prop :=
  s.inBuf = Memory.ofBytes s.inBuf.bytes ∧ s.len = s.inBuf.bytes.length ∧ s.len < 2 ^ s.cfg.lenBits

/-- The call registers are those ACCEPT computes for the latched input (10_state.md R26 to R31). -/
abbrev State.CallLatched (s : State) : Prop :=
  s.written = true ∧ s.BufferWf ∧ s.tag.extractLsb' 0 3 = 0#3 ∧
  s.nfr.toNat = nframes s.len s.cfg.cap ∧
  s.frag = decide (s.cfg.cap < s.len ∧ s.len ≤ 4 * s.cfg.cap) ∧
  s.status = decide (4 * s.cfg.cap < s.len)

/-- The frames of the latched call by the functional definition (40_packet_fragmenter.md R110). -/
def State.latchedFrames (s : State) : List Frame := callFrames s.inBuf.bytes s.tag s.cfg.cap

/-- The last transfers observed are the first `n` frames of the latched call (20_memory.md R58). -/
def State.HasEmitted (s : State) (n : Nat) : Prop :=
  ∃ past, s.obs = past ++ (s.latchedFrames.take n).map .frm

/-- A call in progress that began where the observation was `base`: since then exactly its first `k` frames by
the functional definition were transferred, in order (40_packet_fragmenter.md R110; 20_memory.md R58). -/
def State.CallFrom (s : State) (base : List Transfer) : Prop :=
  s.phase ≠ phaseIdle ∧ s.obs = base ++ (s.latchedFrames.take s.k.toNat).map .frm

/-- The same state of a block elaborated with another `SEQ_BITS` (00_scope.md R7). -/
def State.withSeqBits (s : State) (b : Nat) : State := { s with cfg := { s.cfg with seqBits := b } }

/-- The invariant. In IDLE it asks only that the registers are within their stated ranges; in a call it
ties them to the latched input and the observation to the functional definition. -/
structure State.Inv (s : State) : Prop where
  legal : s.cfg.legal = true
  phase : s.phase ≠ phaseNone
  buffer : s.BufferWf
  tagLow : s.tag.extractLsb' 0 3 = 0#3
  nfrBound : s.nfr.toNat ≤ 4
  kBound : s.k.toNat ≤ s.nfr.toNat
  call : s.phase ≠ phaseIdle → s.CallLatched
  emit : s.phase = phaseEmit → s.k.toNat < s.nfr.toNat ∧ s.HasEmitted s.k.toNat
  resp : s.phase = phaseResp → s.k = s.nfr ∧ s.HasEmitted s.nfr.toNat

/-- A request of this schedule's moves is one REQ can carry (10_state.md R21). -/
def Move.wf (c : Config) : Move → Bool
  | .present r => r.wf c
  | .sinkReady _ => true
  | .callerReady _ => true
  | .assertReset => true
  | .run => true

/-- The caller presents only requests that REQ can carry, now and later (10_state.md R21). -/
def State.CallerWf (s : State) : Prop :=
  (∀ r ∈ s.pending, r.wf s.cfg = true) ∧ ∀ m ∈ s.env, m.wf s.cfg = true

/-- No agent has an enabled step: nothing is scheduled and no offered item is accepted
(93_implementation_defined.md I8). -/
abbrev State.Waiting (s : State) : Prop := s.rst = false ∧ s.env = [] ∧ s.fetch = none

/-- A run that is over: no call in progress and no request left (92_eei_decisions.md D22). -/
abbrev State.Finished (s : State) : Prop := s.phase = phaseIdle ∧ s.pending = [] ∧ s.env = []

/-- A stuck run: no enabled step, and yet not finished (70_reset_and_hazards.md R187). -/
abbrev State.Stuck (s : State) : Prop := s.Waiting ∧ ¬ s.Finished

/-- The frame of chunk `i` of the latched input with the `flags` byte `fl`, by the rules' own words:
offset `i*C`, length `min(C, L - i*C)`, the chunk's bytes, then zeros (41_payload_slicer_metadata_encoder.md
R128; 42_frame_composer.md R141 to R144). -/
def State.chunk (s : State) (i : Nat) (fl : Byte) : Frame :=
  let n := min s.cfg.cap (s.len - i * s.cfg.cap)
  ⟨BitVec.ofNat 8 n, fl, (s.inBuf.bytes.drop (i * s.cfg.cap)).take n ++ zeros (s.cfg.cap - n)⟩

/-- The block offers frame `i` of a latched call, fragmented or not, with tag `seq`, and the sink accepts. -/
abbrev State.Offers (s : State) (frag : Bool) (i : Nat) (seq : BitVec 5) : Prop :=
  s.Sound ∧ s.CallLatched ∧ s.phase = phaseEmit ∧ s.frmReady = true ∧ s.frag = frag ∧ s.k.toNat = i ∧
    seqField s.tag = seq

/-- The state after the transfer of frame `i` with the `flags` byte `fl` (40_packet_fragmenter.md R106, R107). -/
def State.sent (s : State) (i : Nat) (fl : Byte) : State :=
  { s with
    k := BitVec.ofNat 3 (i + 1)
    phase := if i + 1 = s.nfr.toNat then phaseResp else phaseEmit
    obs := s.obs ++ [.frm (s.chunk i fl)] }

end Sys2Proof.Machine
end

