-- ==== Sys2Proof/Certificates/Slice0/Obligations.lean ====
section
/-! DEFINITION. The statements for the provers, one definition each, grouped as the rules of spec/ are. -/

open Sys2Proof Sys2Proof.Machine

/-! ## Encodings (30_encoding.md) -/

/-- Decoding the encoding of a well-formed operation gives it back, operands included (R71, R76, R77, R78). -/
def Obligations.DecodeEncodeAgree : Prop :=
  ∀ (c : Config) (i : Instr), i.wf c = true → decode (encode i) = .ok i

/-- A word has one meaning: what decodes to an operation is that operation's encoding. -/
def Obligations.EncodeDecodeAgree : Prop :=
  ∀ (w : ChannelWord) (i : Instr), decode w = .ok i → encode i = w

/-- The decoder refuses exactly the `flags` bytes of R80 and the response words of R82, and no request (R76).
R80 and R82 say only that these words are never produced, and the block decodes none: that they decode to
nothing and are refused by name, RSP_OK counts 0, 5, 6 and 7 included, is the model's choice (log 10). -/
def Obligations.DecoderRefusesExactlyReserved : Prop :=
  (∀ b : Byte, decode (.frm b) = .error (.reservedFlags b) ↔
    b.extractLsb' 0 3 = 0b010#3 ∨ b.extractLsb' 0 3 = 0b100#3 ∨ b.extractLsb' 0 3 = 0b110#3) ∧
  (∀ w : BitVec 4, decode (.rsp w) = .error (.reservedResponse w) ↔
    ¬ (w = 0b0010#4 ∨ w = 0b0100#4 ∨ w = 0b0110#4 ∨ w = 0b1000#4 ∨ w = 0b0001#4)) ∧
  (∀ r : Request, decode (.req r) = .ok (.fragment r))

/-- The `flags` byte is the OR of three disjoint fields, which is also their sum; each field reads back; the
encodings of the frame kinds are such bytes; and the byte the block computes from `frag`, `k` and the
request's `seq` is the one assembled from `FRAG = frag`, `IDX = k[1:0]`, `SEQ = seq mod 32` (R79, R71). -/
def Obligations.FlagsByteIsThreeDisjointFields : Prop :=
  (∀ (f : BitVec 1) (x : BitVec 2) (q : BitVec 5),
    assembleFlags f x q = (f.zeroExtend 8 ||| (x.zeroExtend 8 <<< 1) ||| (q.zeroExtend 8 <<< 3)) ∧
    (assembleFlags f x q).toNat = f.toNat + 2 * x.toNat + 8 * q.toNat ∧
    (assembleFlags f x q).extractLsb' 0 1 = f ∧
    (assembleFlags f x q).extractLsb' 1 2 = x ∧
    (assembleFlags f x q).extractLsb' 3 5 = q) ∧
  (∀ q : BitVec 5,
    encode (.frameSingle q) = .frm (assembleFlags 0 0 q) ∧
    encode (.frameFrag0 q) = .frm (assembleFlags 1 0 q) ∧
    encode (.frameFrag1 q) = .frm (assembleFlags 1 1 q) ∧
    encode (.frameFrag2 q) = .frm (assembleFlags 1 2 q) ∧
    encode (.frameFrag3 q) = .frm (assembleFlags 1 3 q)) ∧
  (∀ (frag : Bool) (k : BitVec 3) (seq : Nat), k.toNat < 4 → (frag = true ∨ k = 0#3) →
    flagsOf frag k.toNat (seqTag seq) =
      some (assembleFlags (BitVec.ofBool frag) (k.extractLsb' 0 2) (BitVec.ofNat 5 (seq % 32))))

/-- Words written out from the encodings of the spec decode to the operations they stand for (a sanity
statement on fixed words: R123 to R127, R77). -/
def Obligations.WrittenOutWordsDecode : Prop :=
  decode (.frm 0b00001000#8) = .ok (.frameSingle 1#5) ∧
  decode (.frm 0b00101001#8) = .ok (.frameFrag0 5#5) ∧
  decode (.frm 0b00101011#8) = .ok (.frameFrag1 5#5) ∧
  decode (.frm 0b00000101#8) = .ok (.frameFrag2 0#5) ∧
  decode (.frm 0b11111111#8) = .ok (.frameFrag3 31#5) ∧
  decode (.rsp 0b0100#4) = .ok (.rspOk 2#3) ∧
  decode (.rsp 0b0001#4) = .ok .rspOversize ∧
  decode (.req ⟨[0x7F#8], 1, 5⟩) = .ok (.fragment ⟨[0x7F#8], 1, 5⟩)

/-! ## Tag, frame count and chunks (41_payload_slicer_metadata_encoder.md) -/

/-- `seq_tag(seq) = (seq & 0x1F) << 3 = (seq mod 32) * 8`; `seq_tag[7:3] = seq[4:0]`, `seq_tag[2:0] = 0`; bits
5 and up of `seq` do not count; a negative software counter's tag is the counter mod 32 in `0..31` (R120). -/
def Obligations.SequenceTagIsTheLowFiveBits : Prop :=
  (∀ seq : Nat,
    seqTag seq = BitVec.ofNat 8 ((seq &&& 0x1F) <<< 3) ∧
    (seqTag seq).toNat = seq % 32 * 8 ∧
    (seqTag seq).extractLsb' 3 5 = BitVec.ofNat 5 seq ∧
    (seqTag seq).extractLsb' 0 3 = 0#3) ∧
  (∀ seq seq' : Nat, seq % 32 = seq' % 32 → seqTag seq = seqTag seq') ∧
  (∀ (c : Config) (counter : Int), c.legal = true →
    ((seqTag (presentedSeq c counter)).toNat : Int) = counter % 32 * 8)

/-- The tag round-trips: `(seq_tag(seq) >> 3) & 0x1F = seq mod 32` for every `seq` (R121). -/
def Obligations.SequenceTagRoundTrips : Prop :=
  ∀ seq : Nat, ((seqTag seq >>> 3) &&& 0x1F#8).toNat = seq % 32

/-- `nframes(L, C)`: 0 when oversize, 1 when `L <= C`, else `ceil(L / C)`, which is 2, 3 or 4 and is the
least number of `C`-byte chunks that holds `L` bytes (R129). -/
def Obligations.FrameCountByPath : Prop :=
  ∀ L C : Nat, 1 ≤ C →
    (4 * C < L → nframes L C = 0) ∧
    (L ≤ C → nframes L C = 1) ∧
    (C < L → L ≤ 4 * C →
      nframes L C = (L + C - 1) / C ∧ 2 ≤ nframes L C ∧ nframes L C ≤ 4 ∧
      (nframes L C - 1) * C < L ∧ L ≤ nframes L C * C)

/-- On the fragmented path every chunk but the last has length `C`, the last has `L - (n-1)*C`, in `1..C`, and
the lengths sum to `L`; on the single-frame path the one chunk has length `L` (R131). -/
def Obligations.ChunkLengthsByPath : Prop :=
  ∀ L C : Nat, 1 ≤ C →
    (C < L → L ≤ 4 * C →
      (∀ i, i + 1 < nframes L C → slice L C i = some (i * C, C)) ∧
      slice L C (nframes L C - 1) = some ((nframes L C - 1) * C, L - (nframes L C - 1) * C) ∧
      1 ≤ L - (nframes L C - 1) * C ∧ L - (nframes L C - 1) * C ≤ C ∧
      ((List.range (nframes L C)).map (fun i => ((slice L C i).getD (0, 0)).2)).sum = L) ∧
    (L ≤ C → slice L C 0 = some (0, L))

/-! ## The input space and the composer (20_memory.md, 42_frame_composer.md) -/

/-- The latched buffer reads back byte by byte, has no byte at or past `L`, and is in canonical form (R50,
R56; that a read past `L` gives no value is log 20). -/
def Obligations.LatchedBufferReadsTheInput : Prop :=
  ∀ bs : List Byte,
    (∀ a, Memory.read (Memory.ofBytes bs) a = bs[a]?) ∧ Memory.wf (Memory.ofBytes bs) ∧
    Memory.bytes (Memory.ofBytes bs) = bs

/-- A composed frame: payload bytes `0..len-1` are the chunk's input bytes in order, bytes `len..C-1` are zero,
`length` is `len` untruncated, `flags` is the byte given (R141, R142, R143, R144; R51). -/
def Obligations.ComposedFrameIsChunkThenZeros : Prop :=
  ∀ (bs : List Byte) (cap off len : Nat) (fl : Byte),
    off + len ≤ bs.length → len ≤ cap → cap ≤ 255 →
    ∃ f, compose (Memory.ofBytes bs) cap off len fl = some f ∧
      f.payload.length = cap ∧ f.length.toNat = len ∧ f.flags = fl ∧
      (∀ j, j < len → f.payload[j]? = bs[off + j]?) ∧
      (∀ j, len ≤ j → j < cap → f.payload[j]? = some 0x00#8)

/-- A compose reads exactly the offsets `off..off+len-1`: memories that agree there compose the same frame
(R146's first sentence), and each of those offsets is needed: where one has no value there is no frame. The
spec has no such read; that it gives no value and then no frame is the model's choice (logs 7, 20). -/
def Obligations.ComposeReadsOnlyItsChunk : Prop :=
  (∀ (m m' : Memory) (cap off len : Nat) (fl : Byte),
    (∀ j, j < len → m.read (off + j) = m'.read (off + j)) →
      compose m cap off len fl = compose m' cap off len fl) ∧
  (∀ (m : Memory) (cap off len j : Nat) (fl : Byte),
    j < len → len ≤ cap → m.read (off + j) = none → compose m cap off len fl = none)

/-! ## The functional definition (40_packet_fragmenter.md R100 to R104, R112) -/

/-- For a call that succeeds the `length` fields sum to `L`, and the first `length` bytes of the payloads,
concatenated, are the input; for an oversize call no frame exists (R112). -/
def Obligations.LengthsAndBytesAreConserved : Prop :=
  ∀ (input : List Byte) (seq cap : Nat), 1 ≤ cap → cap ≤ 255 →
    (input.length ≤ 4 * cap → ∃ fs, fragmentCall input seq cap = .frames fs ∧
      (fs.map (fun f => f.length.toNat)).sum = input.length ∧
      fs.flatMap (fun f => f.payload.take f.length.toNat) = input) ∧
    (4 * cap < input.length → fragmentCall input seq cap = .oversize input.length ∧
      ∀ f, Transfer.frm f ∉ (fragmentCall input seq cap).transfers)

/-- The frames of a successful call: `nframes(L, C)` of them, each with `C` payload bytes, each with the call's
tag in `SEQ`, with FRAG 0 and IDX 0 on the single-frame path and FRAG 1 and IDX its position on the fragmented
one; only the last can be short, and a fragmented frame is never empty (R103, R122, R132, R81). -/
def Obligations.CallFramesHaveOneTagAndRisingIndex : Prop :=
  ∀ (input : List Byte) (seq cap : Nat), 1 ≤ cap → cap ≤ 255 → input.length ≤ 4 * cap →
    ∃ fs, fragmentCall input seq cap = .frames fs ∧ fs.length = nframes input.length cap ∧
      ∀ (i : Nat) (f : Frame), fs[i]? = some f →
        f.payload.length = cap ∧ f.length.toNat ≤ cap ∧
        f.flags.extractLsb' 3 5 = BitVec.ofNat 5 seq ∧
        (input.length ≤ cap → f.flags.extractLsb' 0 3 = 0b000#3) ∧
        (cap < input.length →
          f.flags.extractLsb' 0 1 = 1#1 ∧ (f.flags.extractLsb' 1 2).toNat = i ∧ 1 ≤ f.length.toNat) ∧
        (i + 1 < fs.length → f.length.toNat = cap)

/-! ## FRAGMENT (40_packet_fragmenter.md R105, R109; 60_exceptions.md) -/

/-- ACCEPT. In IDLE with the request on offer, FRAGMENT completes: it latches the input, its length and its
tag, clears `k`, and takes the oversize, single-frame or fragmented path by the exact length (R105). -/
def Obligations.FragmentLatchesAndChoosesPath : Prop :=
  ∀ (r : Request) (s : State), s.Sound → s.phase = phaseIdle → s.pending.head? = some r → r.wf s.cfg = true →
    ∃ t, exec (.fragment r) s = .next t ∧
      t.inBuf = Memory.ofBytes r.input ∧ t.len = r.input.length ∧
      t.tag = BitVec.ofNat 8 (r.seq % 32 * 8) ∧ t.k = 0#3 ∧
      (4 * s.cfg.cap < r.input.length →
        t.status = true ∧ t.nfr = 0#3 ∧ t.frag = false ∧ t.phase = phaseResp) ∧
      (r.input.length ≤ s.cfg.cap →
        t.status = false ∧ t.nfr = 1#3 ∧ t.frag = false ∧ t.phase = phaseEmit) ∧
      (s.cfg.cap < r.input.length → r.input.length ≤ 4 * s.cfg.cap →
        t.status = false ∧ t.nfr.toNat = (r.input.length + s.cfg.cap - 1) / s.cfg.cap ∧ t.frag = true ∧
        t.phase = phaseEmit)

/-- OVERSIZE, entered and left. An oversize request puts no frame on offer, only
`RSP status=OVERSIZE count=0`; when the caller takes it the block is IDLE again, ready for the next
request, with that response as the call's only transfer (R160, R161, R165, R166). -/
def Obligations.OversizeReportsAndReturnsToIdle : Prop :=
  ∀ (r : Request) (s : State), s.Sound → s.phase = phaseIdle → s.pending.head? = some r → r.wf s.cfg = true →
    s.rspReady = true → 4 * s.cfg.cap < r.input.length →
    ∃ t u, exec (.fragment r) s = .next t ∧
      t.outputs.frmValid = false ∧ t.outputs.reqReady = false ∧ t.outputs.rspValid = true ∧
      t.outputs.rsp = ⟨true, 0#3⟩ ∧
      exec .rspOversize t = .next u ∧ u.outputs.reqReady = true ∧ u.outputs.rspValid = false ∧
      u.obs = s.obs ++ [.rsp ⟨true, 0#3⟩] ∧ u.pending = s.pending.tail

/-- The block takes no request while `phase != IDLE`: `req_ready` is 0, FRAGMENT changes nothing, and every
step keeps the requests on offer as they are, the caller's new ones behind them (R109). -/
def Obligations.BusyBlockLeavesRequestsOnOffer : Prop :=
  ∀ s : State, s.phase ≠ phaseIdle →
    s.reqReady = false ∧
    (∀ r, s.Sound → exec (.fragment r) s = .next s) ∧
    (∀ t, step s = .next t → ∃ more, t.pending = s.pending ++ more)

/-- A request that REQ's fields cannot carry is refused by name (the model's choice, log 9, on R21's widths). -/
def Obligations.UnpresentableRequestIsRefused : Prop :=
  ∀ (r : Request) (s : State), s.Sound → s.phase = phaseIdle → s.pending.head? = some r → r.wf s.cfg = false →
    exec (.fragment r) s = .refused .requestNotPresentable

/-- The frame of FRAGMENT: the parameters, the agents' lines, the schedule, the observation and the draws are
unchanged. Where the request is taken it leaves the caller's list and the input space becomes its bytes (that
the list is the caller's, and the bit `written`, are the model's, logs 3, 5); else nothing changes. -/
def Obligations.FragmentFrame : Prop :=
  ∀ (r : Request) (s t : State), exec (.fragment r) s = .next t →
    t.cfg = s.cfg ∧ t.frmReady = s.frmReady ∧ t.rspReady = s.rspReady ∧ t.rst = s.rst ∧ t.env = s.env ∧
    t.obs = s.obs ∧ t.draw = s.draw ∧
    (t = s ∨ (s.pending.head? = some r ∧ t.pending = s.pending.tail ∧ t.written = true ∧
      t.len = r.input.length ∧ ∀ a, t.inBuf.read a = r.input[a]?))

/-- Neither bits 5 and up of the counter nor its width reach a register or an output (R7, R120). Two requests
with one input and counters equal mod 32, each presented to a block of its own `SEQ_BITS`, leave the same state
up to that parameter; every later operation keeps two such states the same; and their outputs are the same. -/
def Obligations.HighCounterBitsReachNothing : Prop :=
  (∀ (s : State) (r r' : Request) (rest : List Request) (b : Nat),
    r.input = r'.input → r.seq % 32 = r'.seq % 32 → 5 ≤ b →
    r.wf s.cfg = true → r'.wf (s.withSeqBits b).cfg = true → s.Sound → s.phase = phaseIdle →
    ∃ t, exec (.fragment r) { s with pending := r :: rest } = .next t ∧
      exec (.fragment r') { s.withSeqBits b with pending := r' :: rest } = .next (t.withSeqBits b)) ∧
  (∀ (s t : State) (i : Instr) (b : Nat), 5 ≤ b → (∀ r, i ≠ .fragment r) → exec i s = .next t →
    exec i (s.withSeqBits b) = .next (t.withSeqBits b)) ∧
  (∀ (s : State) (b : Nat), (s.withSeqBits b).outputs = s.outputs)

/-- No output of a call depends on an earlier call: from two idle states that differ only in the registers of
R26 to R31, the request transfer leaves one and the same state (R8, R38, R39). -/
def Obligations.AcceptForgetsEarlierCalls : Prop :=
  ∀ (s s' : State) (r : Request), s.Sound → s.phase = phaseIdle → s'.phase = phaseIdle →
    s'.cfg = s.cfg → s'.pending = s.pending → s'.frmReady = s.frmReady → s'.rspReady = s.rspReady →
    s'.rst = s.rst → s'.env = s.env → s'.obs = s.obs → s'.draw = s.draw →
    s.pending.head? = some r → r.wf s.cfg = true →
    ∃ t, exec (.fragment r) s = .next t ∧ exec (.fragment r) s' = .next t

/-! ## The frame kinds (40_packet_fragmenter.md R106, R107; 41 R123 to R127) -/

/-- FRAME_SINGLE completes: the sink gets the whole input, zero-padded, with `flags = sssss000`, and the block
goes to RESP (R123, R102, R107). -/
def Obligations.FrameSingleTransfers : Prop :=
  ∀ (seq : BitVec 5) (s : State), s.Offers false 0 seq →
    exec (.frameSingle seq) s = .next
      { s with
        k := 1#3, phase := phaseResp
        obs := s.obs ++
          [.frm ⟨BitVec.ofNat 8 s.len, seq ++ 0b000#3, s.inBuf.bytes ++ zeros (s.cfg.cap - s.len)⟩] }

/-- FRAME_FRAG0 to FRAME_FRAG3 complete: frame `i` carries chunk `i`, zero-padded, with `flags = 0x01 | (i << 1)
| seq_tag`; `k` becomes `i + 1`; the block stays in EMIT, or goes to RESP after the last frame (R106, R107,
R124 to R127). -/
def Obligations.FragmentFramesTransfer : Prop :=
  ∀ (seq : BitVec 5) (s : State),
    (s.Offers true 0 seq → exec (.frameFrag0 seq) s = .next (s.sent 0 (seq ++ 0b001#3))) ∧
    (s.Offers true 1 seq → exec (.frameFrag1 seq) s = .next (s.sent 1 (seq ++ 0b011#3))) ∧
    (s.Offers true 2 seq → exec (.frameFrag2 seq) s = .next (s.sent 2 (seq ++ 0b101#3))) ∧
    (s.Offers true 3 seq → exec (.frameFrag3 seq) s = .next (s.sent 3 (seq ++ 0b111#3)))

/-- A frame kind that is not on offer, or that the sink does not accept, transfers nothing: the state stays as
it is (R24; log 8 for the kinds not on offer). -/
def Obligations.FrameNotTakenChangesNothing : Prop :=
  ∀ (i : Instr) (b : Byte) (s : State), encode i = .frm b → s.Sound →
    (s.phase ≠ phaseEmit ∨ s.frmReady = false ∨ (∃ f, s.frameOnOffer = some f ∧ f.flags ≠ b)) →
    exec i s = .next s

/-- The frame of the five frame kinds: only `k`, `phase` and the observation can change; every byte of the input
space reads as before; the observation grows by at most one frame. -/
def Obligations.FrameKindsFrame : Prop :=
  ∀ (i : Instr) (b : Byte) (s t : State), encode i = .frm b → exec i s = .next t →
    t.cfg = s.cfg ∧ (∀ a, t.inBuf.read a = s.inBuf.read a) ∧ t.inBuf = s.inBuf ∧ t.len = s.len ∧
    t.tag = s.tag ∧ t.frag = s.frag ∧ t.nfr = s.nfr ∧ t.status = s.status ∧ t.written = s.written ∧
    t.pending = s.pending ∧ t.frmReady = s.frmReady ∧ t.rspReady = s.rspReady ∧ t.rst = s.rst ∧
    t.env = s.env ∧ t.draw = s.draw ∧
    (t = s ∨ ∃ f, f.flags = b ∧ s.frameOnOffer = some f ∧ t.obs = s.obs ++ [.frm f])

/-! ## The responses (40_packet_fragmenter.md R108) -/

/-- RESPOND completes for both responses: `rsp.status = status`, `rsp.count = nfr` go to the caller and the block
is IDLE (R108). -/
def Obligations.ResponsesTransfer : Prop :=
  ∀ s : State, s.Sound → s.phase = phaseResp → s.rspReady = true →
    (∀ n : BitVec 3, s.status = false → s.nfr = n →
      exec (.rspOk n) s = .next { s with phase := phaseIdle, obs := s.obs ++ [.rsp ⟨false, n⟩] }) ∧
    (s.status = true → s.nfr = 0#3 →
      exec .rspOversize s = .next { s with phase := phaseIdle, obs := s.obs ++ [.rsp ⟨true, 0#3⟩] })

/-- A response that is not on offer, or that the caller does not accept, transfers nothing (R24; log 8). -/
def Obligations.ResponseNotTakenChangesNothing : Prop :=
  ∀ (i : Instr) (w : BitVec 4) (s : State), encode i = .rsp w → s.Sound →
    (s.phase ≠ phaseResp ∨ s.rspReady = false ∨ responseWord s.responseOnOffer ≠ w) →
    exec i s = .next s

/-- The frame of the responses: only `phase` and the observation can change, so the registers of R26 to R31 keep
their values (R39) and every byte of the input space reads as before. -/
def Obligations.ResponsesFrame : Prop :=
  ∀ (i : Instr) (w : BitVec 4) (s t : State), encode i = .rsp w → exec i s = .next t →
    (∀ a, t.inBuf.read a = s.inBuf.read a) ∧
    (t = s ∨ ∃ r, responseWord r = w ∧ t = { s with phase := phaseIdle, obs := s.obs ++ [.rsp r] })

/-! ## The step, reset and the other agents (10_state.md R20, R24; 70_reset_and_hazards.md) -/

/-- When it is the block's turn and the word on its channels decodes to `i`, the step is `exec i`, after the
draw and the schedule's move are counted (the model's own fields, logs 4, 11). -/
def Obligations.StepRunsTheDecodedOperation : Prop :=
  ∀ (s : State) (w : ChannelWord) (i : Instr), s.Sound → s.rst = false →
    (s.env = [] ∨ s.env.head? = some .run) → s.fetchWord = some w → decode w = .ok i →
    step s = exec i { s with draw := s.draw + 1, env := s.env.tail }

/-- Reset takes priority over every other step, in every phase: whatever is on offer or scheduled, the block
is IDLE at once, what was on offer is withdrawn, transfers already made stay made and none is added, and a
request on offer is not taken but stays for the block, which is ready for it (R180). -/
def Obligations.ResetTakesPriority : Prop :=
  ∀ s : State, s.Sound → s.rst = true →
    ∃ t, step s = .next t ∧ t.phase = phaseIdle ∧ t.outputs.reqReady = true ∧
      t.outputs.frmValid = false ∧ t.outputs.rspValid = false ∧
      t.cfg = s.cfg ∧ t.obs = s.obs ∧ t.pending = s.pending

/-- What the reset step does besides R180, by the model's own choices (logs 3, 4, 19): the line falls, the
registers R37 leaves unspecified count as unwritten, and the other agents' lines and schedule stay. -/
def Obligations.ResetStepTouchesNoOtherAgent : Prop :=
  ∀ s t : State, s.rst = true → step s = .next t →
    t.rst = false ∧ t.written = false ∧ t.frmReady = s.frmReady ∧ t.rspReady = s.rspReady ∧
    t.pending = s.pending ∧ t.env = s.env

/-- After reset the block is ready for a request and offers nothing, whatever its parameters (R37, R181). -/
def Obligations.ResetLeavesTheBlockReady : Prop :=
  ∀ c : Config, (State.resetWith c).phase = phaseIdle ∧ (State.resetWith c).cfg = c ∧
    (State.resetWith c).outputs.reqReady = true ∧ (State.resetWith c).outputs.frmValid = false ∧
    (State.resetWith c).outputs.rspValid = false ∧ State.reset = State.resetWith Config.ofExamples

/-- A step of the caller, of the sink or of whoever asserts reset changes its own line or list and nothing of
the block (R20; the schedule and the draw are the model's own, logs 4, 11). -/
def Obligations.OtherAgentsMoveOnlyTheirOwnLines : Prop :=
  ∀ (s : State) (rest : List Move), s.Sound → s.rst = false →
    (∀ r, s.env = .present r :: rest →
      step s = .next { s with draw := s.draw + 1, env := rest, pending := s.pending ++ [r] }) ∧
    (∀ b, s.env = .sinkReady b :: rest →
      step s = .next { s with draw := s.draw + 1, env := rest, frmReady := b }) ∧
    (∀ b, s.env = .callerReady b :: rest →
      step s = .next { s with draw := s.draw + 1, env := rest, rspReady := b }) ∧
    (s.env = .assertReset :: rest →
      step s = .next { s with draw := s.draw + 1, env := rest, rst := true })

/-- An offered item is transferred only when its receiver accepts, and until then, unless reset occurs, it stays
on offer with every field unchanged: the frame, the response and the request (R24). -/
def Obligations.OfferedItemsStayUntilTransferred : Prop :=
  ∀ s t : State, s.rst = false → step s = .next t →
    (∀ f, s.outputs.frmValid = true → s.frameOnOffer = some f →
      (s.frmReady = true ∧ t.obs = s.obs ++ [.frm f]) ∨
      (t.obs = s.obs ∧ t.outputs.frmValid = true ∧ t.outputs.frm = f)) ∧
    (s.outputs.rspValid = true →
      (s.rspReady = true ∧ t.obs = s.obs ++ [.rsp s.responseOnOffer]) ∨
      (t.obs = s.obs ∧ t.outputs.rspValid = true ∧ t.outputs.rsp = s.responseOnOffer)) ∧
    (∀ r rest, s.pending = r :: rest →
      (s.outputs.reqReady = true ∧ t.outputs.reqReady = false ∧ t.pending = rest) ∨
      (∃ more, t.pending = r :: rest ++ more)) ∧
    (t.obs ≠ s.obs → s.outputs.frmValid = true ∨ s.outputs.rspValid = true)

/-- The sequencing position moves only by the transitions of R105 to R108 and by reset, and `k` never wraps: it
starts at 0, counts up by one and ends at `nfr` (R33). -/
def Obligations.PhaseMovesOnlyByTheFourTransitions : Prop :=
  ∀ s t : State, s.rst = false → step s = .next t →
    (t.phase = s.phase ∧ t.k = s.k) ∨
    (s.phase = phaseIdle ∧ (t.phase = phaseEmit ∨ t.phase = phaseResp) ∧ t.k = 0#3) ∨
    (s.phase = phaseEmit ∧ t.phase = phaseEmit ∧ t.k.toNat = s.k.toNat + 1 ∧ t.k.toNat < s.nfr.toNat) ∨
    (s.phase = phaseEmit ∧ t.phase = phaseResp ∧ t.k.toNat = s.k.toNat + 1 ∧ t.k = s.nfr) ∨
    (s.phase = phaseResp ∧ t.phase = phaseIdle ∧ t.k = s.k)

/-- The block is ready for at most one kind of transfer at a time (R168, R25). -/
def Obligations.AtMostOneChannelIsReady : Prop :=
  ∀ s : State,
    (s.outputs.reqReady && s.outputs.frmValid) = false ∧
    (s.outputs.reqReady && s.outputs.rspValid) = false ∧
    (s.outputs.frmValid && s.outputs.rspValid) = false

/-- No operation and no step, reset included, changes the parameters (R34, R37). -/
def Obligations.ParametersNeverChange : Prop :=
  (∀ (i : Instr) (s t : State), exec i s = .next t → t.cfg = s.cfg) ∧
  (∀ s t : State, step s = .next t → t.cfg = s.cfg)

/-- The latched input is a snapshot: a step changes no byte of it and not its length, unless the step is a
request transfer from IDLE or a reset (R26, R61). -/
def Obligations.LatchedInputIsASnapshot : Prop :=
  ∀ s t : State, step s = .next t →
    s.rst = true ∨ (s.phase = phaseIdle ∧ t.phase ≠ phaseIdle) ∨
    ((∀ a, t.inBuf.read a = s.inBuf.read a) ∧ t.len = s.len ∧ t.tag = s.tag)

/-- The input space keeps its canonical form in every step from every state that has it. -/
def Obligations.InputSpaceStaysCanonical : Prop :=
  ∀ s t : State, Memory.wf s.inBuf → step s = .next t → Memory.wf t.inBuf

/-- Back-pressure. While a receiver withholds its ready line and no other agent moves, the block waits without
bound: after any number of steps the same call is still unfinished and nothing but the model's draw counter
has changed (R187, R170; log 16). -/
def Obligations.WithheldReceiverLeavesTheBlockStuck : Prop :=
  ∀ s : State, s.Sound → s.rst = false → s.env = [] →
    (s.phase = phaseEmit ∧ s.frmReady = false) ∨ (s.phase = phaseResp ∧ s.rspReady = false) →
    s.Stuck ∧ ∀ n, Host.Core.run Sys2Proof.core n s = .next { s with draw := s.draw + n }

/-! ## Faults and configurations (10_state.md R25, R38; 40 R111; 60_exceptions.md R164, R173) -/

/-- The states the rules prove unreachable fault, under the names of R164, in every step and in every operation:
`phase = 0b11` (R25), a register read before ACCEPT wrote it (R38), a frame offer outside the bound of R111.
Three parts are the model's choice: that the bit `written` says what ACCEPT wrote (log 3), that the checks come
before everything, reset and the other agents' moves included, and that EMIT with `k >= nfr`, where R25 offers
no frame, counts as outside the bound (both log 6). -/
def Obligations.UnreachableStatesFault : Prop :=
  ∀ (s : State) (i : Instr), s.cfg.legal = true →
    (s.phase = 0b11#2 → step s = .fault .invariantPhase ∧ exec i s = .fault .invariantPhase) ∧
    (s.phase = phaseEmit ∨ s.phase = phaseResp → s.written = false →
      step s = .fault .invariantUnwritten ∧ exec i s = .fault .invariantUnwritten) ∧
    (s.phase = phaseEmit → s.written = true →
      ¬ (s.k.toNat < s.nfr.toNat ∧ s.nfr.toNat ≤ 4 ∧ (s.frag = true ↔ 2 ≤ s.nfr.toNat)) →
      step s = .fault .invariantFrameBound ∧ exec i s = .fault .invariantFrameBound)

/-- A configuration with `C < 1`, `C > 255`, `LEN_BITS < 10` or `SEQ_BITS < 5` is refused at elaboration, and
every other one is built as given (R173). -/
def Obligations.BadConfigurationIsRefused : Prop :=
  ∀ C l q : Nat,
    (Config.elaborate C l q = none ↔ (C < 1 ∨ 255 < C ∨ l < 10 ∨ q < 5)) ∧
    (¬ (C < 1 ∨ 255 < C ∨ l < 10 ∨ q < 5) → Config.elaborate C l q = some ⟨C, l, q⟩)

/-- No step and no operation runs under a configuration that elaboration refuses (the model's form of R173's
"does not exist", log 1). -/
def Obligations.NothingRunsUnderABadConfiguration : Prop :=
  ∀ (s : State) (i : Instr), Config.elaborate s.cfg.cap s.cfg.lenBits s.cfg.seqBits = none →
    step s = .refused .configRefused ∧ exec i s = .refused .configRefused

/-! ## The whole machine (40_packet_fragmenter.md R110, R111, R113) -/

/-- The invariant holds after reset, for every legal configuration and for the model's own. R37 gives only the
phase: that `in_buf`, `L`, `tag`, `nfr` and `k` lie in the invariant's ranges rests on the zeros the model chose
(log 2), and `State.reset` has the parameter values the model chose (log 1). -/
def Obligations.InvariantHoldsAfterReset : Prop :=
  (∀ c : Config, c.legal = true → (State.resetWith c).Inv) ∧ State.reset.Inv

/-- Every step keeps the invariant: the phase stays legal, `nfr <= 4`, `k <= nfr`, the call registers stay those
of the latched input, the snapshot stays canonical, and the frames transferred so far stay exactly the first `k`
frames of the functional definition, in order. -/
def Obligations.StepKeepsTheInvariant : Prop :=
  ∀ s t : State, s.Inv → step s = .next t → t.Inv

/-- A state with the invariant never faults and never stops while the caller presents only requests that REQ can
carry: every step answers a next state, from which the same holds (R111, R113, R164). -/
def Obligations.InvariantStatesNeverStop : Prop :=
  ∀ s : State, s.Inv → s.CallerWf → ∃ t, step s = .next t ∧ t.Inv ∧ t.CallerWf

/-- What the block never produces: in a state with the invariant, no reserved `flags` byte, no frame longer than
`C`, no empty frame of a fragmented call, and no response word but the five of R77 is on offer (R80, R81, R82). -/
def Obligations.NeverProducedWordsAreNotOffered : Prop :=
  ∀ s : State, s.Inv →
    (s.outputs.frmValid = true → ∃ f, s.frameOnOffer = some f ∧
      (∃ i, decode (.frm f.flags) = .ok i) ∧ f.length.toNat ≤ s.cfg.cap ∧ f.payload.length = s.cfg.cap ∧
      (f.flags.extractLsb' 0 1 = 1#1 → 1 ≤ f.length.toNat)) ∧
    (s.outputs.rspValid = true → ∃ i, decode (.rsp (responseWord s.outputs.rsp)) = .ok i)

/-- Refinement, under every schedule, in steps without reset (R110). The request transfer begins a call of the
request on offer, at the observation of that moment. Each further step of the call keeps that base: the
transfers since are exactly the first `k` frames of the latched call, which stays the same. The step that ends
the call leaves exactly the frames and then the response of the functional definition after the base. -/
def Obligations.ResponseEndsExactlyTheCall : Prop :=
  ∀ s t : State, s.Inv → s.rst = false → step s = .next t →
    (s.phase = phaseIdle → t.phase ≠ phaseIdle →
      t.CallFrom s.obs ∧ t.k = 0#3 ∧
      ∃ r, s.pending.head? = some r ∧ t.inBuf.bytes = r.input ∧ t.tag = seqTag r.seq) ∧
    (∀ base, s.CallFrom base →
      (t.phase ≠ phaseIdle → t.CallFrom base ∧ t.inBuf = s.inBuf ∧ t.tag = s.tag) ∧
      (t.phase = phaseIdle → ∀ seq, seqTag seq = s.tag →
        t.obs = base ++ (fragmentCall s.inBuf.bytes seq s.cfg.cap).transfers))

/-- Refinement and progress. From an idle block with a request on offer and a sink and a caller that accept, a
run of `nframes + 2` steps transfers exactly what the functional definition returns and is idle again
(R110, R113). -/
def Obligations.CallTakesItsFramesPlusTwoTransfers : Prop :=
  ∀ (s : State) (r : Request) (rest : List Request), s.Sound → s.phase = phaseIdle →
    s.pending = r :: rest → r.wf s.cfg = true →
    s.frmReady = true → s.rspReady = true → s.rst = false → s.env = [] →
    ∃ t, Host.Core.run Sys2Proof.core (nframes r.input.length s.cfg.cap + 2) s = .next t ∧
      t.obs = s.obs ++ (fragmentCall r.input r.seq s.cfg.cap).transfers ∧
      t.phase = phaseIdle ∧ t.pending = rest ∧ t.cfg = s.cfg ∧
      t.frmReady = true ∧ t.rspReady = true ∧ t.rst = false ∧ t.env = []

/-- One call at a time. An idle block serves any list of requests one after another: every call's frames and
response come before any transfer of the next call, and the run finishes (R60, R83, R110). -/
def Obligations.RequestsAreServedOneAfterAnother : Prop :=
  ∀ (reqs : List Request) (s : State), s.Sound → s.phase = phaseIdle → s.pending = reqs →
    (∀ r ∈ reqs, r.wf s.cfg = true) →
    s.frmReady = true → s.rspReady = true → s.rst = false → s.env = [] →
    ∃ n t, Host.Core.run Sys2Proof.core n s = .next t ∧
      t.obs = s.obs ++ programTransfers s.cfg.cap reqs ∧ t.Finished
end

