-- ==== Sys2Proof/Laws/State.lean ====
section
/-! SUPPORT. One lemma per field per update of State, and the length and field facts of phases. -/

namespace Sys2Proof.Laws

open Sys2Proof.Machine

@[simp] theorem tick_cfg (s : State) : s.tick.cfg = s.cfg := rfl
@[simp] theorem tick_phase (s : State) : s.tick.phase = s.phase := rfl
@[simp] theorem tick_inBuf (s : State) : s.tick.inBuf = s.inBuf := rfl
@[simp] theorem tick_len (s : State) : s.tick.len = s.len := rfl
@[simp] theorem tick_tag (s : State) : s.tick.tag = s.tag := rfl
@[simp] theorem tick_frag (s : State) : s.tick.frag = s.frag := rfl
@[simp] theorem tick_nfr (s : State) : s.tick.nfr = s.nfr := rfl
@[simp] theorem tick_k (s : State) : s.tick.k = s.k := rfl
@[simp] theorem tick_status (s : State) : s.tick.status = s.status := rfl
@[simp] theorem tick_written (s : State) : s.tick.written = s.written := rfl
@[simp] theorem tick_pending (s : State) : s.tick.pending = s.pending := rfl
@[simp] theorem tick_frmReady (s : State) : s.tick.frmReady = s.frmReady := rfl
@[simp] theorem tick_rspReady (s : State) : s.tick.rspReady = s.rspReady := rfl
@[simp] theorem tick_rst (s : State) : s.tick.rst = s.rst := rfl
@[simp] theorem tick_env (s : State) : s.tick.env = s.env := rfl
@[simp] theorem tick_obs (s : State) : s.tick.obs = s.obs := rfl
@[simp] theorem tick_draw (s : State) : s.tick.draw = s.draw + 1 := rfl

@[simp] theorem popMove_cfg (s : State) : s.popMove.cfg = s.cfg := rfl
@[simp] theorem popMove_phase (s : State) : s.popMove.phase = s.phase := rfl
@[simp] theorem popMove_inBuf (s : State) : s.popMove.inBuf = s.inBuf := rfl
@[simp] theorem popMove_len (s : State) : s.popMove.len = s.len := rfl
@[simp] theorem popMove_tag (s : State) : s.popMove.tag = s.tag := rfl
@[simp] theorem popMove_frag (s : State) : s.popMove.frag = s.frag := rfl
@[simp] theorem popMove_nfr (s : State) : s.popMove.nfr = s.nfr := rfl
@[simp] theorem popMove_k (s : State) : s.popMove.k = s.k := rfl
@[simp] theorem popMove_status (s : State) : s.popMove.status = s.status := rfl
@[simp] theorem popMove_written (s : State) : s.popMove.written = s.written := rfl
@[simp] theorem popMove_pending (s : State) : s.popMove.pending = s.pending := rfl
@[simp] theorem popMove_frmReady (s : State) : s.popMove.frmReady = s.frmReady := rfl
@[simp] theorem popMove_rspReady (s : State) : s.popMove.rspReady = s.rspReady := rfl
@[simp] theorem popMove_rst (s : State) : s.popMove.rst = s.rst := rfl
@[simp] theorem popMove_env (s : State) : s.popMove.env = s.env.tail := rfl
@[simp] theorem popMove_obs (s : State) : s.popMove.obs = s.obs := rfl
@[simp] theorem popMove_draw (s : State) : s.popMove.draw = s.draw := rfl

@[simp] theorem withSeqBits_cfg (s : State) (b : Nat) : (s.withSeqBits b).cfg = { s.cfg with seqBits := b } := rfl
@[simp] theorem withSeqBits_phase (s : State) (b : Nat) : (s.withSeqBits b).phase = s.phase := rfl
@[simp] theorem withSeqBits_inBuf (s : State) (b : Nat) : (s.withSeqBits b).inBuf = s.inBuf := rfl
@[simp] theorem withSeqBits_len (s : State) (b : Nat) : (s.withSeqBits b).len = s.len := rfl
@[simp] theorem withSeqBits_tag (s : State) (b : Nat) : (s.withSeqBits b).tag = s.tag := rfl
@[simp] theorem withSeqBits_frag (s : State) (b : Nat) : (s.withSeqBits b).frag = s.frag := rfl
@[simp] theorem withSeqBits_nfr (s : State) (b : Nat) : (s.withSeqBits b).nfr = s.nfr := rfl
@[simp] theorem withSeqBits_k (s : State) (b : Nat) : (s.withSeqBits b).k = s.k := rfl
@[simp] theorem withSeqBits_status (s : State) (b : Nat) : (s.withSeqBits b).status = s.status := rfl
@[simp] theorem withSeqBits_written (s : State) (b : Nat) : (s.withSeqBits b).written = s.written := rfl
@[simp] theorem withSeqBits_pending (s : State) (b : Nat) : (s.withSeqBits b).pending = s.pending := rfl
@[simp] theorem withSeqBits_frmReady (s : State) (b : Nat) : (s.withSeqBits b).frmReady = s.frmReady := rfl
@[simp] theorem withSeqBits_rspReady (s : State) (b : Nat) : (s.withSeqBits b).rspReady = s.rspReady := rfl
@[simp] theorem withSeqBits_rst (s : State) (b : Nat) : (s.withSeqBits b).rst = s.rst := rfl
@[simp] theorem withSeqBits_env (s : State) (b : Nat) : (s.withSeqBits b).env = s.env := rfl
@[simp] theorem withSeqBits_obs (s : State) (b : Nat) : (s.withSeqBits b).obs = s.obs := rfl
@[simp] theorem withSeqBits_draw (s : State) (b : Nat) : (s.withSeqBits b).draw = s.draw := rfl

@[simp] theorem resetBlock_cfg (s : State) : s.resetBlock.cfg = s.cfg := rfl
@[simp] theorem resetBlock_phase (s : State) : s.resetBlock.phase = phaseIdle := rfl
@[simp] theorem resetBlock_inBuf (s : State) : s.resetBlock.inBuf = [] := rfl
@[simp] theorem resetBlock_len (s : State) : s.resetBlock.len = 0 := rfl
@[simp] theorem resetBlock_tag (s : State) : s.resetBlock.tag = 0#8 := rfl
@[simp] theorem resetBlock_frag (s : State) : s.resetBlock.frag = false := rfl
@[simp] theorem resetBlock_nfr (s : State) : s.resetBlock.nfr = 0#3 := rfl
@[simp] theorem resetBlock_k (s : State) : s.resetBlock.k = 0#3 := rfl
@[simp] theorem resetBlock_status (s : State) : s.resetBlock.status = false := rfl
@[simp] theorem resetBlock_written (s : State) : s.resetBlock.written = false := rfl
@[simp] theorem resetBlock_pending (s : State) : s.resetBlock.pending = s.pending := rfl
@[simp] theorem resetBlock_frmReady (s : State) : s.resetBlock.frmReady = s.frmReady := rfl
@[simp] theorem resetBlock_rspReady (s : State) : s.resetBlock.rspReady = s.rspReady := rfl
@[simp] theorem resetBlock_rst (s : State) : s.resetBlock.rst = false := rfl
@[simp] theorem resetBlock_env (s : State) : s.resetBlock.env = s.env := rfl
@[simp] theorem resetBlock_obs (s : State) : s.resetBlock.obs = s.obs := rfl
@[simp] theorem resetBlock_draw (s : State) : s.resetBlock.draw = s.draw := rfl

@[simp] theorem latchRequest_cfg (s : State) (r : Request) : (s.latchRequest r).cfg = s.cfg := rfl
@[simp] theorem latchRequest_phase (s : State) (r : Request) : (s.latchRequest r).phase = s.phase := rfl
@[simp] theorem latchRequest_inBuf (s : State) (r : Request) : (s.latchRequest r).inBuf = Memory.ofBytes r.input := rfl
@[simp] theorem latchRequest_len (s : State) (r : Request) : (s.latchRequest r).len = r.input.length := rfl
@[simp] theorem latchRequest_tag (s : State) (r : Request) : (s.latchRequest r).tag = seqTag r.seq := rfl
@[simp] theorem latchRequest_frag (s : State) (r : Request) : (s.latchRequest r).frag = s.frag := rfl
@[simp] theorem latchRequest_nfr (s : State) (r : Request) : (s.latchRequest r).nfr = s.nfr := rfl
@[simp] theorem latchRequest_k (s : State) (r : Request) : (s.latchRequest r).k = 0#3 := rfl
@[simp] theorem latchRequest_status (s : State) (r : Request) : (s.latchRequest r).status = s.status := rfl
@[simp] theorem latchRequest_written (s : State) (r : Request) : (s.latchRequest r).written = true := rfl
@[simp] theorem latchRequest_pending (s : State) (r : Request) : (s.latchRequest r).pending = s.pending.tail := rfl
@[simp] theorem latchRequest_frmReady (s : State) (r : Request) : (s.latchRequest r).frmReady = s.frmReady := rfl
@[simp] theorem latchRequest_rspReady (s : State) (r : Request) : (s.latchRequest r).rspReady = s.rspReady := rfl
@[simp] theorem latchRequest_rst (s : State) (r : Request) : (s.latchRequest r).rst = s.rst := rfl
@[simp] theorem latchRequest_env (s : State) (r : Request) : (s.latchRequest r).env = s.env := rfl
@[simp] theorem latchRequest_obs (s : State) (r : Request) : (s.latchRequest r).obs = s.obs := rfl
@[simp] theorem latchRequest_draw (s : State) (r : Request) : (s.latchRequest r).draw = s.draw := rfl

@[simp] theorem raiseOversize_cfg (s : State) : s.raiseOversize.cfg = s.cfg := rfl
@[simp] theorem raiseOversize_phase (s : State) : s.raiseOversize.phase = phaseResp := rfl
@[simp] theorem raiseOversize_inBuf (s : State) : s.raiseOversize.inBuf = s.inBuf := rfl
@[simp] theorem raiseOversize_len (s : State) : s.raiseOversize.len = s.len := rfl
@[simp] theorem raiseOversize_tag (s : State) : s.raiseOversize.tag = s.tag := rfl
@[simp] theorem raiseOversize_frag (s : State) : s.raiseOversize.frag = false := rfl
@[simp] theorem raiseOversize_nfr (s : State) : s.raiseOversize.nfr = 0#3 := rfl
@[simp] theorem raiseOversize_k (s : State) : s.raiseOversize.k = s.k := rfl
@[simp] theorem raiseOversize_status (s : State) : s.raiseOversize.status = true := rfl
@[simp] theorem raiseOversize_written (s : State) : s.raiseOversize.written = s.written := rfl
@[simp] theorem raiseOversize_pending (s : State) : s.raiseOversize.pending = s.pending := rfl
@[simp] theorem raiseOversize_frmReady (s : State) : s.raiseOversize.frmReady = s.frmReady := rfl
@[simp] theorem raiseOversize_rspReady (s : State) : s.raiseOversize.rspReady = s.rspReady := rfl
@[simp] theorem raiseOversize_rst (s : State) : s.raiseOversize.rst = s.rst := rfl
@[simp] theorem raiseOversize_env (s : State) : s.raiseOversize.env = s.env := rfl
@[simp] theorem raiseOversize_obs (s : State) : s.raiseOversize.obs = s.obs := rfl
@[simp] theorem raiseOversize_draw (s : State) : s.raiseOversize.draw = s.draw := rfl

@[simp] theorem startSingle_cfg (s : State) : s.startSingle.cfg = s.cfg := rfl
@[simp] theorem startSingle_phase (s : State) : s.startSingle.phase = phaseEmit := rfl
@[simp] theorem startSingle_inBuf (s : State) : s.startSingle.inBuf = s.inBuf := rfl
@[simp] theorem startSingle_len (s : State) : s.startSingle.len = s.len := rfl
@[simp] theorem startSingle_tag (s : State) : s.startSingle.tag = s.tag := rfl
@[simp] theorem startSingle_frag (s : State) : s.startSingle.frag = false := rfl
@[simp] theorem startSingle_nfr (s : State) : s.startSingle.nfr = 1#3 := rfl
@[simp] theorem startSingle_k (s : State) : s.startSingle.k = s.k := rfl
@[simp] theorem startSingle_status (s : State) : s.startSingle.status = false := rfl
@[simp] theorem startSingle_written (s : State) : s.startSingle.written = s.written := rfl
@[simp] theorem startSingle_pending (s : State) : s.startSingle.pending = s.pending := rfl
@[simp] theorem startSingle_frmReady (s : State) : s.startSingle.frmReady = s.frmReady := rfl
@[simp] theorem startSingle_rspReady (s : State) : s.startSingle.rspReady = s.rspReady := rfl
@[simp] theorem startSingle_rst (s : State) : s.startSingle.rst = s.rst := rfl
@[simp] theorem startSingle_env (s : State) : s.startSingle.env = s.env := rfl
@[simp] theorem startSingle_obs (s : State) : s.startSingle.obs = s.obs := rfl
@[simp] theorem startSingle_draw (s : State) : s.startSingle.draw = s.draw := rfl

@[simp] theorem startFragmented_cfg (s : State) : s.startFragmented.cfg = s.cfg := rfl
@[simp] theorem startFragmented_phase (s : State) : s.startFragmented.phase = phaseEmit := rfl
@[simp] theorem startFragmented_inBuf (s : State) : s.startFragmented.inBuf = s.inBuf := rfl
@[simp] theorem startFragmented_len (s : State) : s.startFragmented.len = s.len := rfl
@[simp] theorem startFragmented_tag (s : State) : s.startFragmented.tag = s.tag := rfl
@[simp] theorem startFragmented_frag (s : State) : s.startFragmented.frag = true := rfl
@[simp] theorem startFragmented_nfr (s : State) : s.startFragmented.nfr = BitVec.ofNat 3 (nframes s.len s.cfg.cap) := rfl
@[simp] theorem startFragmented_k (s : State) : s.startFragmented.k = s.k := rfl
@[simp] theorem startFragmented_status (s : State) : s.startFragmented.status = false := rfl
@[simp] theorem startFragmented_written (s : State) : s.startFragmented.written = s.written := rfl
@[simp] theorem startFragmented_pending (s : State) : s.startFragmented.pending = s.pending := rfl
@[simp] theorem startFragmented_frmReady (s : State) : s.startFragmented.frmReady = s.frmReady := rfl
@[simp] theorem startFragmented_rspReady (s : State) : s.startFragmented.rspReady = s.rspReady := rfl
@[simp] theorem startFragmented_rst (s : State) : s.startFragmented.rst = s.rst := rfl
@[simp] theorem startFragmented_env (s : State) : s.startFragmented.env = s.env := rfl
@[simp] theorem startFragmented_obs (s : State) : s.startFragmented.obs = s.obs := rfl
@[simp] theorem startFragmented_draw (s : State) : s.startFragmented.draw = s.draw := rfl

@[simp] theorem afterFrame_cfg (s : State) (f : Frame) : (s.afterFrame f).cfg = s.cfg := rfl
@[simp] theorem afterFrame_phase (s : State) (f : Frame) : (s.afterFrame f).phase = (if s.k + 1#3 = s.nfr then phaseResp else phaseEmit) := rfl
@[simp] theorem afterFrame_inBuf (s : State) (f : Frame) : (s.afterFrame f).inBuf = s.inBuf := rfl
@[simp] theorem afterFrame_len (s : State) (f : Frame) : (s.afterFrame f).len = s.len := rfl
@[simp] theorem afterFrame_tag (s : State) (f : Frame) : (s.afterFrame f).tag = s.tag := rfl
@[simp] theorem afterFrame_frag (s : State) (f : Frame) : (s.afterFrame f).frag = s.frag := rfl
@[simp] theorem afterFrame_nfr (s : State) (f : Frame) : (s.afterFrame f).nfr = s.nfr := rfl
@[simp] theorem afterFrame_k (s : State) (f : Frame) : (s.afterFrame f).k = s.k + 1#3 := rfl
@[simp] theorem afterFrame_status (s : State) (f : Frame) : (s.afterFrame f).status = s.status := rfl
@[simp] theorem afterFrame_written (s : State) (f : Frame) : (s.afterFrame f).written = s.written := rfl
@[simp] theorem afterFrame_pending (s : State) (f : Frame) : (s.afterFrame f).pending = s.pending := rfl
@[simp] theorem afterFrame_frmReady (s : State) (f : Frame) : (s.afterFrame f).frmReady = s.frmReady := rfl
@[simp] theorem afterFrame_rspReady (s : State) (f : Frame) : (s.afterFrame f).rspReady = s.rspReady := rfl
@[simp] theorem afterFrame_rst (s : State) (f : Frame) : (s.afterFrame f).rst = s.rst := rfl
@[simp] theorem afterFrame_env (s : State) (f : Frame) : (s.afterFrame f).env = s.env := rfl
@[simp] theorem afterFrame_obs (s : State) (f : Frame) : (s.afterFrame f).obs = s.obs ++ [.frm f] := rfl
@[simp] theorem afterFrame_draw (s : State) (f : Frame) : (s.afterFrame f).draw = s.draw := rfl

@[simp] theorem afterResponse_cfg (s : State) : s.afterResponse.cfg = s.cfg := rfl
@[simp] theorem afterResponse_phase (s : State) : s.afterResponse.phase = phaseIdle := rfl
@[simp] theorem afterResponse_inBuf (s : State) : s.afterResponse.inBuf = s.inBuf := rfl
@[simp] theorem afterResponse_len (s : State) : s.afterResponse.len = s.len := rfl
@[simp] theorem afterResponse_tag (s : State) : s.afterResponse.tag = s.tag := rfl
@[simp] theorem afterResponse_frag (s : State) : s.afterResponse.frag = s.frag := rfl
@[simp] theorem afterResponse_nfr (s : State) : s.afterResponse.nfr = s.nfr := rfl
@[simp] theorem afterResponse_k (s : State) : s.afterResponse.k = s.k := rfl
@[simp] theorem afterResponse_status (s : State) : s.afterResponse.status = s.status := rfl
@[simp] theorem afterResponse_written (s : State) : s.afterResponse.written = s.written := rfl
@[simp] theorem afterResponse_pending (s : State) : s.afterResponse.pending = s.pending := rfl
@[simp] theorem afterResponse_frmReady (s : State) : s.afterResponse.frmReady = s.frmReady := rfl
@[simp] theorem afterResponse_rspReady (s : State) : s.afterResponse.rspReady = s.rspReady := rfl
@[simp] theorem afterResponse_rst (s : State) : s.afterResponse.rst = s.rst := rfl
@[simp] theorem afterResponse_env (s : State) : s.afterResponse.env = s.env := rfl
@[simp] theorem afterResponse_obs (s : State) : s.afterResponse.obs = s.obs ++ [.rsp s.responseOnOffer] := rfl
@[simp] theorem afterResponse_draw (s : State) : s.afterResponse.draw = s.draw := rfl

end Sys2Proof.Laws
end

