-- ==== Sys2Proof/Laws/Bits.lean ====
section
/-! SUPPORT. The tag, the `flags` byte and the channel words: what each function of them gives, for every
value. -/

namespace Sys2Proof.Laws

open Sys2Proof.Machine

theorem seqTag_eq_ofNat (seq : Nat) : seqTag seq = BitVec.ofNat 8 (seq % 32 * 8) := by
  have h : seq &&& 31 = seq % 32 := Nat.and_two_pow_sub_one_eq_mod seq 5
  simp [seqTag, h, Nat.shiftLeft_eq]

theorem seqTag_congr {seq seq' : Nat} (h : seq % 32 = seq' % 32) : seqTag seq = seqTag seq' := by
  rw [seqTag_eq_ofNat, seqTag_eq_ofNat, h]

theorem seqTag_toNat (seq : Nat) : (seqTag seq).toNat = seq % 32 * 8 := by
  rw [seqTag_eq_ofNat, BitVec.toNat_ofNat]; omega

theorem ofNat_five_mod (n : Nat) : BitVec.ofNat 5 (n % 32) = BitVec.ofNat 5 n := by
  apply BitVec.eq_of_toNat_eq; simp

theorem seqTag_append (seq : Nat) : seqTag seq = BitVec.ofNat 5 seq ++ 0b000#3 := by
  have h : ∀ n < 32, BitVec.ofNat 8 (n * 8) = BitVec.ofNat 5 n ++ 0b000#3 := by decide
  rw [seqTag_eq_ofNat, h _ (Nat.mod_lt _ (by decide)), ofNat_five_mod]

@[simp] theorem seqField_append (q : BitVec 5) (x : BitVec 3) : seqField (q ++ x) = q := by
  revert q x; decide

@[simp] theorem kindField_append (q : BitVec 5) (x : BitVec 3) : kindField (q ++ x) = x := by
  revert q x; decide

/-- A byte is its SEQ field over its kind field. -/
theorem seqField_append_kindField (b : Byte) : seqField b ++ kindField b = b := by
  revert b; decide

@[simp] theorem seqField_seqTag (seq : Nat) : seqField (seqTag seq) = BitVec.ofNat 5 seq := by
  rw [seqTag_append, seqField_append]

@[simp] theorem kindField_seqTag (seq : Nat) : kindField (seqTag seq) = 0#3 := by
  rw [seqTag_append, kindField_append]

/-- The assembled byte of a frame kind is its encoding. -/
theorem assembleFlags_append (f : BitVec 1) (x : BitVec 2) (q : BitVec 5) :
    assembleFlags f x q = q ++ (x ++ f : BitVec 3) := by
  revert f x q; decide

/-- The low bits of frame `i`'s kind: IDX = `i`, FRAG = 1. -/
def fragKind (i : Nat) : BitVec 3 := BitVec.ofNat 3 (2 * i + 1)

/-- The `flags` byte of frame `i` of a fragmented call, for a tag with clear low bits. -/
theorem flagsFrag_of_tag {t : Byte} (ht : kindField t = 0#3) {i : Nat} (hi : i < 4) :
    flagsFrag i t = some (seqField t ++ fragKind i) := by
  have h : ∀ i < 4, ∀ q : BitVec 5,
      (0x01#8 ||| BitVec.ofNat 8 (i <<< 1) ||| (q ++ 0#3 : Byte)) = q ++ fragKind i := by decide
  have ht' : t = seqField t ++ 0#3 := by rw [← ht, seqField_append_kindField]
  rw [flagsFrag, if_pos hi, Option.some.injEq]
  conv => lhs; rw [ht']
  exact h i hi _

/-- The same byte as the functional definition writes it. -/
theorem refFlags_of_tag {t : Byte} (ht : kindField t = 0#3) {i : Nat} (hi : i < 4) :
    (0x01#8 ||| BitVec.ofNat 8 (2 * i) ||| t) = seqField t ++ fragKind i := by
  have h : ∀ i < 4, ∀ q : BitVec 5,
      (0x01#8 ||| BitVec.ofNat 8 (2 * i) ||| (q ++ 0#3 : Byte)) = q ++ fragKind i := by decide
  have ht' : t = seqField t ++ 0#3 := by rw [← ht, seqField_append_kindField]
  conv => lhs; rw [ht']
  exact h i hi _

/-- A decoded `flags` byte: the byte is the operation's encoding. -/
theorem encode_of_decodeFlags {b : Byte} {i : Instr} (h : decodeFlags b = .ok i) : encode i = .frm b := by
  have hb := seqField_append_kindField b
  unfold decodeFlags at h
  split_ifs at h with h0 h1 h2 h3 h4 <;> cases h <;> simp_all [encode]

/-- A decoded response word: the word is the operation's encoding. -/
theorem encode_of_decodeResponse {w : BitVec 4} {i : Instr} (h : decodeResponse w = .ok i) :
    encode i = .rsp w := by
  have hw : ∀ (w : BitVec 4), countField w ++ BitVec.ofBool (w.getLsbD 0) = w := by decide
  unfold decodeResponse at h
  split_ifs at h with h0 h1 h2 <;> cases h
  · rw [encode, ← hw w, h0, h1]; rfl
  · rw [encode]
    conv => rhs; rw [← hw w]
    rw [Bool.not_eq_true] at h0
    rw [h0]; rfl

@[simp] theorem responseWord_inj (r r' : Response) : responseWord r = responseWord r' ↔ r = r' := by
  have h : ∀ (s s' : Bool) (n n' : BitVec 3),
      (n ++ BitVec.ofBool s : BitVec 4) = n' ++ BitVec.ofBool s' ↔ s = s' ∧ n = n' := by decide
  cases r; cases r'; simp [responseWord, h]

end Sys2Proof.Laws
end

