-- ==== Sys2Proof/Laws/Memory.lean ====
section
/-! SUPPORT. The input space and the composer: reads of a latched buffer, the canonical form, and what a
composed frame holds. -/

namespace Sys2Proof.Laws

open Sys2Proof.Machine

theorem read_ofBytesFrom (bs : List Byte) : ∀ base a : Nat,
    Memory.read (Memory.ofBytesFrom base bs) a = if a < base then none else bs[a - base]? := by
  induction bs with
  | nil => intro base a; simp [Memory.ofBytesFrom, Memory.read, Memory.unlisted]
  | cons b bs ih =>
    intro base a
    simp only [Memory.ofBytesFrom, Memory.read, ih]
    by_cases h : base = a
    · simp [h]
    · rw [if_neg h]
      by_cases h1 : a < base
      · rw [if_pos h1, if_pos (by omega)]
      · rw [if_neg h1, if_neg (by omega), show a - base = (a - (base + 1)) + 1 by omega,
          List.getElem?_cons_succ]

/-- A latched buffer reads back byte by byte, and has no byte past its end. -/
@[simp] theorem read_ofBytes (bs : List Byte) (a : Nat) : Memory.read (Memory.ofBytes bs) a = bs[a]? := by
  simp [Memory.ofBytes, read_ofBytesFrom]

theorem bytes_ofBytesFrom (bs : List Byte) : ∀ base, Memory.bytes (Memory.ofBytesFrom base bs) = bs := by
  induction bs with
  | nil => intro base; rfl
  | cons b bs ih => intro base; simpa [Memory.ofBytesFrom, Memory.bytes] using ih (base + 1)

@[simp] theorem bytes_ofBytes (bs : List Byte) : Memory.bytes (Memory.ofBytes bs) = bs :=
  bytes_ofBytesFrom bs 0

theorem ofBytesFrom_ge (bs : List Byte) : ∀ base, ∀ c ∈ Memory.ofBytesFrom base bs, base ≤ c.1 := by
  induction bs with
  | nil => intro base c h; simp [Memory.ofBytesFrom] at h
  | cons b bs ih =>
    intro base c h
    simp only [Memory.ofBytesFrom, List.mem_cons] at h
    rcases h with rfl | h
    · exact Nat.le_refl _
    · exact Nat.le_of_succ_le (ih _ c h)

/-- Latching gives the canonical form. -/
theorem wf_ofBytesFrom (bs : List Byte) : ∀ base, Memory.wf (Memory.ofBytesFrom base bs) := by
  induction bs with
  | nil => intro base; exact List.Pairwise.nil
  | cons b bs ih =>
    intro base
    exact List.Pairwise.cons (fun c hc => ofBytesFrom_ge bs (base + 1) c hc) (ih (base + 1))

theorem wf_ofBytes (bs : List Byte) : Memory.wf (Memory.ofBytes bs) := wf_ofBytesFrom bs 0

theorem wf_reset (c : Config) : Memory.wf (State.resetWith c).inBuf := List.Pairwise.nil

/-- `payloadFrom` over a memory that holds `bs`: chunk bytes, then zeros. -/
theorem payloadFrom_ofBytes (bs : List Byte) (off len : Nat) (hlen : off + len ≤ bs.length) :
    ∀ n j, payloadFrom (Memory.ofBytes bs) off len j n =
      some (((bs.drop (off + j)).take (min n (len - j))) ++ zeros (n - (len - j))) := by
  intro n
  induction n with
  | zero => intro j; simp [payloadFrom, zeros]
  | succ n ih =>
    intro j
    rw [payloadFrom, ih (j + 1)]
    by_cases h : j < len
    · have hlt : off + j < bs.length := by omega
      rw [if_pos h, read_ofBytes, List.getElem?_eq_getElem hlt, List.drop_eq_getElem_cons hlt,
        show min (n + 1) (len - j) = min n (len - (j + 1)) + 1 by omega, List.take_succ_cons,
        show n + 1 - (len - j) = n - (len - (j + 1)) by omega]
      rfl
    · rw [if_neg h, show len - j = 0 by omega, show len - (j + 1) = 0 by omega]
      simp [zeros, List.replicate_succ]

/-- What `compose` gives for a chunk inside the buffer. -/
theorem compose_ofBytes (bs : List Byte) {cap off len : Nat} (fl : Byte) (hlen : off + len ≤ bs.length)
    (hcap : len ≤ cap) :
    compose (Memory.ofBytes bs) cap off len fl =
      some ⟨BitVec.ofNat 8 len, fl, (bs.drop off).take len ++ zeros (cap - len)⟩ := by
  rw [compose, payloadFrom_ofBytes bs off len hlen cap 0]
  simp [Nat.min_eq_right hcap]

/-- Whatever memory it reads, a composed frame carries the `flags` byte given. -/
theorem compose_flags {m : Memory} {cap off len : Nat} {fl : Byte} {f : Frame}
    (h : compose m cap off len fl = some f) : f.flags = fl := by
  unfold compose at h
  split at h <;> simp at h
  rw [← h]

end Sys2Proof.Laws
end

