-- ==== Sys2Proof/Laws/Chunks.lean ====
section
/-! SUPPORT. The arithmetic of frame counts and chunks (exact, on naturals), and the frames of the
functional definition. -/

namespace Sys2Proof.Laws

open Sys2Proof.Machine

theorem nframes_oversize {L C : Nat} (h : 4 * C < L) : nframes L C = 0 := by simp [nframes, h]

theorem nframes_single {L C : Nat} (h : L ≤ C) : nframes L C = 1 := by
  rw [nframes, if_neg (by omega), if_pos h]

theorem nframes_fragmented {L C : Nat} (h1 : C < L) (h2 : L ≤ 4 * C) : nframes L C = ceilDiv L C := by
  rw [nframes, if_neg (by omega), if_neg (by omega)]

/-- `ceil(L / C)` is the least count of `C`-byte chunks that holds `L` bytes. -/
theorem lt_ceilDiv_iff {L C : Nat} (hC : 1 ≤ C) (i : Nat) : i < ceilDiv L C ↔ i * C < L := by
  rw [ceilDiv, Nat.lt_iff_add_one_le, Nat.le_div_iff_mul_le (by omega), Nat.add_mul]
  omega

theorem ceilDiv_bounds {L C : Nat} (hC : 1 ≤ C) (h1 : C < L) (h2 : L ≤ 4 * C) :
    2 ≤ ceilDiv L C ∧ ceilDiv L C ≤ 4 := by
  have a := (lt_ceilDiv_iff (L := L) hC 1).2 (by omega)
  have b := mt (lt_ceilDiv_iff (L := L) hC 4).1 (by omega)
  omega

theorem nframes_le_four {L C : Nat} (hC : 1 ≤ C) : nframes L C ≤ 4 := by
  rcases Nat.lt_or_ge (4 * C) L with h | h
  · simp [nframes_oversize h]
  · rcases Nat.lt_or_ge C L with h1 | h1
    · rw [nframes_fragmented h1 h]; exact (ceilDiv_bounds hC h1 h).2
    · simp [nframes_single h1]

/-- A frame index is inside a call exactly where its chunk starts inside the input, or it is the one frame of
an empty input. -/
theorem lt_nframes_iff {L C : Nat} (hC : 1 ≤ C) (hL : L ≤ 4 * C) (i : Nat) :
    i < nframes L C ↔ i = 0 ∨ i * C < L := by
  rcases Nat.lt_or_ge C L with h1 | h1
  · rw [nframes_fragmented h1 hL, lt_ceilDiv_iff hC]
    constructor
    · exact Or.inr
    · rintro (rfl | h)
      · omega
      · exact h
  · rw [nframes_single h1]
    constructor
    · intro h; exact .inl (by omega)
    · rintro (rfl | h)
      · omega
      · rcases i with _ | i
        · omega
        · rw [Nat.add_mul] at h; omega

/-- The chunk of a frame inside the call lies inside the input. -/
theorem chunk_in_input {L C : Nat} (hC : 1 ≤ C) {i : Nat} (hi : i < nframes L C) :
    i * C + min C (L - i * C) ≤ L := by
  have hL : L ≤ 4 * C := by
    by_contra h
    rw [nframes_oversize (by omega)] at hi
    omega
  rcases (lt_nframes_iff hC hL i).1 hi with rfl | h <;> omega

theorem slice_of_lt {L C i : Nat} (hi : i < nframes L C) :
    slice L C i = some (i * C, min C (L - i * C)) := by simp [slice, hi]

/-- The functional definition's frame of a chunk, in closed form. -/
theorem chunkFrame_eq (input : List Byte) (cap i : Nat) (fl : Byte) :
    chunkFrame input cap i fl =
      ⟨BitVec.ofNat 8 (min cap (input.length - i * cap)), fl,
        (input.drop (i * cap)).take (min cap (input.length - i * cap)) ++
          zeros (cap - min cap (input.length - i * cap))⟩ := by
  have h : (input.drop (i * cap)).take cap =
      (input.drop (i * cap)).take (min cap (input.length - i * cap)) := by
    rcases Nat.le_total cap (input.length - i * cap) with h | h
    · rw [Nat.min_eq_left h]
    · rw [Nat.min_eq_right h, List.take_of_length_le (by simpa using h),
        List.take_of_length_le (by simp)]
  simp [chunkFrame, h]

theorem callFrames_oversize {input : List Byte} {t : Byte} {cap : Nat} (h : 4 * cap < input.length) :
    callFrames input t cap = [] := by simp [callFrames, h]

theorem callFrames_single {input : List Byte} {t : Byte} {cap : Nat} (h : input.length ≤ cap) :
    callFrames input t cap = [chunkFrame input cap 0 t] := by
  rw [callFrames, if_neg (by omega), if_pos h]

theorem callFrames_fragmented {input : List Byte} {t : Byte} {cap : Nat} (h1 : cap < input.length)
    (h2 : input.length ≤ 4 * cap) :
    callFrames input t cap = (List.range (ceilDiv input.length cap)).map
      (fun i => chunkFrame input cap i (0x01#8 ||| BitVec.ofNat 8 (2 * i) ||| t)) := by
  rw [callFrames, if_neg (by omega), if_neg (by omega)]

@[simp] theorem callFrames_length (input : List Byte) (t : Byte) (cap : Nat) :
    (callFrames input t cap).length = nframes input.length cap := by
  unfold callFrames nframes
  split_ifs <;> simp

end Sys2Proof.Laws
end

