-- ==== Sys2Proof/Laws/Ops.lean ====
section
/-! SUPPORT. One inversion lemma for each shared operation: what it answers, and everything a next state of
it can be. Later proofs cite these and unfold nothing. -/

namespace Sys2Proof.Laws

open Sys2Proof.Machine

/-! ## The guard -/

theorem guarded_of_sound {s : State} (h : s.Sound) (go : Answer) : guarded s go = go := by
  simp [guarded, h.1, h.2]

/-- A next state comes only from a state that exists and does not fault, and from what was guarded. -/
theorem guarded_next {s t : State} {go : Answer} (h : guarded s go = .next t) : s.Sound ∧ go = .next t := by
  unfold guarded at h
  split at h
  · split at h
    · cases h
    · exact ⟨⟨by assumption, by assumption⟩, h⟩
  · cases h

theorem guarded_fault {s : State} {f : Fault} (hc : s.cfg.legal = true) (hf : s.modelFault = some f)
    (go : Answer) : guarded s go = .fault f := by simp [guarded, hc, hf]

theorem guarded_illegal {s : State} (hc : s.cfg.legal = false) (go : Answer) :
    guarded s go = .refused .configRefused := by simp [guarded, hc]

/-! ## The model's checks -/

/-- An idle block that exists is sound. -/
theorem sound_of_idle {s : State} (hc : s.cfg.legal = true) (h : s.phase = phaseIdle) : s.Sound :=
  ⟨hc, by simp [State.modelFault, h, phaseIdle, phaseNone]⟩

/-- A block in RESP after ACCEPT is sound. -/
theorem sound_of_resp {s : State} (hc : s.cfg.legal = true) (h : s.phase = phaseResp)
    (hw : s.written = true) : s.Sound :=
  ⟨hc, by simp [State.modelFault, h, hw, phaseIdle, phaseNone, phaseResp]⟩

/-- A block in EMIT after ACCEPT, inside the bound and with a frame to offer, is sound. -/
theorem sound_of_emit {s : State} {f : Frame} (hc : s.cfg.legal = true) (h : s.phase = phaseEmit)
    (hw : s.written = true) (hb : s.frameBound = true) (hf : s.frameOnOffer = some f) : s.Sound :=
  ⟨hc, by simp [State.modelFault, h, hw, hb, hf, phaseIdle, phaseNone, phaseResp, phaseEmit]⟩

/-- What a sound block in EMIT offers: it was latched, the bound of R111 holds, and there is a frame. -/
theorem emit_of_sound {s : State} (hs : s.Sound) (h : s.phase = phaseEmit) :
    s.written = true ∧ s.frameBound = true ∧ ∃ f, s.frameOnOffer = some f := by
  have hm := hs.2
  simp only [State.modelFault, h] at hm
  split_ifs at hm with h1 h2 h3 h4 h5 h6
  · exact absurd ‹phaseEmit = phaseIdle› (by decide)
  · exact absurd ‹phaseEmit = phaseResp› (by decide)
  · refine ⟨by simpa using h3, by simpa using h5, ?_⟩
    cases hf : s.frameOnOffer with
    | none => simp [hf] at h6
    | some f => exact ⟨f, rfl⟩

theorem frameBound_iff (s : State) :
    s.frameBound = true ↔
      s.k.toNat < s.nfr.toNat ∧ s.nfr.toNat ≤ 4 ∧ (s.frag = true ↔ 2 ≤ s.nfr.toNat) := by
  simp only [State.frameBound, Bool.and_eq_true, decide_eq_true_eq, BitVec.lt_def, and_assoc]
  cases s.frag <;> simp

/-- A sound block is in one of the three phases. -/
theorem phase_of_sound {s : State} (hs : s.Sound) :
    s.phase = phaseIdle ∨ s.phase = phaseEmit ∨ s.phase = phaseResp := by
  have h : ∀ p : BitVec 2, p = phaseNone ∨ p = phaseIdle ∨ p = phaseEmit ∨ p = phaseResp := by decide
  rcases h s.phase with h | h
  · have := hs.2
    simp [State.modelFault, h] at this
  · exact h

@[simp] theorem modelFault_tick (s : State) : s.tick.modelFault = s.modelFault := rfl
@[simp] theorem modelFault_popMove (s : State) : s.popMove.modelFault = s.modelFault := rfl
@[simp] theorem frameOnOffer_tick (s : State) : s.tick.frameOnOffer = s.frameOnOffer := rfl
@[simp] theorem frameOnOffer_popMove (s : State) : s.popMove.frameOnOffer = s.frameOnOffer := rfl
@[simp] theorem fetchWord_tick (s : State) : s.tick.fetchWord = s.fetchWord := rfl
@[simp] theorem fetchWord_popMove (s : State) : s.popMove.fetchWord = s.fetchWord := rfl
@[simp] theorem fetch_tick (s : State) : s.tick.fetch = s.fetch := rfl
@[simp] theorem fetch_popMove (s : State) : s.popMove.fetch = s.fetch := rfl

/-! ## Taking a request -/

/-- The state after choosing the path: the latched fields are kept. -/
theorem choosePath_kept (s : State) :
    s.choosePath.cfg = s.cfg ∧ s.choosePath.inBuf = s.inBuf ∧ s.choosePath.len = s.len ∧
    s.choosePath.tag = s.tag ∧ s.choosePath.k = s.k ∧ s.choosePath.written = s.written ∧
    s.choosePath.pending = s.pending ∧ s.choosePath.frmReady = s.frmReady ∧
    s.choosePath.rspReady = s.rspReady ∧ s.choosePath.rst = s.rst ∧ s.choosePath.env = s.env ∧
    s.choosePath.obs = s.obs ∧ s.choosePath.draw = s.draw := by
  unfold State.choosePath
  split_ifs <;> simp

/-- The path registers after choosing the path are those of the exact length. -/
theorem choosePath_path (s : State) (hC : 1 ≤ s.cfg.cap) :
    s.choosePath.nfr.toNat = nframes s.len s.cfg.cap ∧
    s.choosePath.frag = decide (s.cfg.cap < s.len ∧ s.len ≤ 4 * s.cfg.cap) ∧
    s.choosePath.status = decide (4 * s.cfg.cap < s.len) ∧
    s.choosePath.phase = if 4 * s.cfg.cap < s.len then phaseResp else phaseEmit := by
  unfold State.choosePath
  split_ifs with h1 h2
  · simp [nframes_oversize h1, h1, Nat.not_le.2 h1]
  · simp [nframes_single h2, h1, Nat.not_lt.2 h2]
  · have := nframes_le_four (L := s.len) hC
    simp only [startFragmented_nfr, BitVec.toNat_ofNat, startFragmented_frag, startFragmented_status,
      startFragmented_phase, h1]
    refine ⟨by omega, ?_, by simp, trivial⟩
    simp; omega

theorem acceptRequest_next {r : Request} {s t : State} (h : acceptRequest r s = .next t) :
    s.Sound ∧ ((s.phase = phaseIdle ∧ s.pending.head? = some r ∧ r.wf s.cfg = true ∧
      t = (s.latchRequest r).choosePath) ∨ t = s) := by
  obtain ⟨hs, h⟩ := guarded_next h
  refine ⟨hs, ?_⟩
  split_ifs at h with h1 h2 <;> cases h
  · exact .inl ⟨h1.1, h1.2, h2, rfl⟩
  · exact .inr rfl

theorem acceptRequest_taken {r : Request} {s : State} (hs : s.Sound) (hp : s.phase = phaseIdle)
    (hr : s.pending.head? = some r) (hw : r.wf s.cfg = true) :
    acceptRequest r s = .next (s.latchRequest r).choosePath := by
  rw [acceptRequest, guarded_of_sound hs, if_pos ⟨hp, hr⟩, if_pos hw]

/-! ## Taking a frame -/

theorem takeFrame_next {fl : Byte} {s t : State} (h : takeFrame fl s = .next t) :
    s.Sound ∧ ((∃ f, s.phase = phaseEmit ∧ s.frmReady = true ∧ s.frameOnOffer = some f ∧ f.flags = fl ∧
      t = s.afterFrame f) ∨ t = s) := by
  obtain ⟨hs, h⟩ := guarded_next h
  refine ⟨hs, ?_⟩
  split_ifs at h with h1
  · split at h
    · next f hf =>
      split_ifs at h with h2 <;> cases h
      · exact .inl ⟨f, h1.1, h1.2, hf, h2, rfl⟩
      · exact .inr rfl
    · cases h
  · cases h; exact .inr rfl

theorem takeFrame_taken {fl : Byte} {s : State} {f : Frame} (hs : s.Sound) (hp : s.phase = phaseEmit)
    (hr : s.frmReady = true) (hf : s.frameOnOffer = some f) (hfl : f.flags = fl) :
    takeFrame fl s = .next (s.afterFrame f) := by
  simp [takeFrame, guarded_of_sound hs, hp, hr, hf, hfl]

theorem takeFrame_held {fl : Byte} {s : State} (hs : s.Sound)
    (h : s.phase ≠ phaseEmit ∨ s.frmReady = false ∨ ∃ f, s.frameOnOffer = some f ∧ f.flags ≠ fl) :
    takeFrame fl s = .next s := by
  rw [takeFrame, guarded_of_sound hs]
  rcases h with h | h | ⟨f, hf, h⟩
  · simp [h]
  · simp [h]
  · simp [hf, h]

/-! ## Taking a response -/

theorem takeResponse_next {w : BitVec 4} {s t : State} (h : takeResponse w s = .next t) :
    s.Sound ∧ ((s.phase = phaseResp ∧ s.rspReady = true ∧ responseWord s.responseOnOffer = w ∧
      t = s.afterResponse) ∨ t = s) := by
  obtain ⟨hs, h⟩ := guarded_next h
  refine ⟨hs, ?_⟩
  split_ifs at h with h1 <;> cases h
  · exact .inl ⟨h1.1, h1.2.1, h1.2.2, rfl⟩
  · exact .inr rfl

theorem takeResponse_taken {w : BitVec 4} {s : State} (hs : s.Sound) (hp : s.phase = phaseResp)
    (hr : s.rspReady = true) (hw : responseWord s.responseOnOffer = w) :
    takeResponse w s = .next s.afterResponse := by
  rw [takeResponse, guarded_of_sound hs, if_pos ⟨hp, hr, hw⟩]

theorem takeResponse_held {w : BitVec 4} {s : State} (hs : s.Sound)
    (h : s.phase ≠ phaseResp ∨ s.rspReady = false ∨ responseWord s.responseOnOffer ≠ w) :
    takeResponse w s = .next s := by
  rw [takeResponse, guarded_of_sound hs, if_neg]
  rintro ⟨h1, h2, h3⟩
  rcases h with h | h | h
  · exact h h1
  · simp [h2] at h
  · exact h h3

end Sys2Proof.Laws
end

