-- ==== Sys2Proof/Laws/Step.lean ====
section
/-! SUPPORT. What an operation is by the channel of its word, what a step can do (said once), and runs. -/

namespace Sys2Proof.Laws

open Sys2Proof.Machine

/-! ## Operations by channel -/

theorem exec_of_encode_req {i : Instr} {r : Request} (h : encode i = .req r) (s : State) :
    exec i s = acceptRequest r s := by
  cases i <;> simp only [encode, ChannelWord.req.injEq, reduceCtorEq] at h
  subst h; rfl

theorem exec_of_encode_frm {i : Instr} {b : Byte} (h : encode i = .frm b) (s : State) :
    exec i s = takeFrame b s := by
  cases i <;> simp only [encode, ChannelWord.frm.injEq, reduceCtorEq] at h <;> subst h
  · exact congrArg (takeFrame · s) (assembleFlags_append 0 0 _)
  · exact congrArg (takeFrame · s) (assembleFlags_append 1 0 _)
  · exact congrArg (takeFrame · s) (assembleFlags_append 1 1 _)
  · exact congrArg (takeFrame · s) (assembleFlags_append 1 2 _)
  · exact congrArg (takeFrame · s) (assembleFlags_append 1 3 _)

theorem exec_of_encode_rsp {i : Instr} {w : BitVec 4} (h : encode i = .rsp w) (s : State) :
    exec i s = takeResponse w s := by
  cases i <;> simp only [encode, ChannelWord.rsp.injEq, reduceCtorEq] at h <;> subst h <;> rfl

/-- Every operation answers what its channel's shared operation answers; in particular it is guarded. -/
theorem exec_guarded (i : Instr) (s : State) : ∃ go, exec i s = guarded s go := by
  cases i <;> exact ⟨_, rfl⟩

/-! ## What the block can do in its turn -/

/-- A turn of the block that answers a next state is a wait or one of the three transfers. -/
theorem runBlock_next {s t : State} (h : runBlock s = .next t) :
    (s.fetch = none ∧ t = s) ∨
    (∃ r, s.phase = phaseIdle ∧ s.pending.head? = some r ∧ r.wf s.cfg = true ∧
      t = (s.latchRequest r).choosePath) ∨
    (∃ f, s.phase = phaseEmit ∧ s.frmReady = true ∧ s.frameOnOffer = some f ∧ t = s.afterFrame f) ∨
    (s.phase = phaseResp ∧ s.rspReady = true ∧ t = s.afterResponse) := by
  unfold runBlock at h
  split at h
  · next hf => cases h; exact .inl ⟨hf, rfl⟩
  · next i hf =>
    simp only [State.fetch, Option.map_eq_some_iff] at hf
    obtain ⟨w, hw, hd⟩ := hf
    unfold State.fetchWord at hw
    split_ifs at hw with h1 h2 h3 h4 h5
    · simp only [Option.map_eq_some_iff] at hw
      obtain ⟨r, hr, rfl⟩ := hw
      cases hd
      rw [exec_of_encode_req rfl] at h
      obtain ⟨hs, ⟨_, _, hwf, rfl⟩ | rfl⟩ := acceptRequest_next h
      · exact .inr (.inl ⟨r, h1, hr, hwf, rfl⟩)
      · rw [acceptRequest, guarded_of_sound hs, if_pos ⟨h1, hr⟩] at h
        split_ifs at h with hwf
        exact .inr (.inl ⟨r, h1, hr, hwf, by simpa using h.symm⟩)
    · simp only [Option.map_eq_some_iff] at hw
      obtain ⟨f, hf, rfl⟩ := hw
      rw [exec_of_encode_frm (encode_of_decodeFlags hd)] at h
      obtain ⟨hs, -⟩ := takeFrame_next h
      rw [takeFrame_taken hs h2 h3 hf rfl] at h
      exact .inr (.inr (.inl ⟨f, h2, h3, hf, by simpa using h.symm⟩))
    · cases hw
      rw [exec_of_encode_rsp (encode_of_decodeResponse hd)] at h
      obtain ⟨hs, -⟩ := takeResponse_next h
      rw [takeResponse_taken hs h4 h5 rfl] at h
      exact .inr (.inr (.inr ⟨h4, h5, by simpa using h.symm⟩))
  · cases h

/-- The state the block moves from in its turn: the draw counted and the schedule's move taken. -/
def turnState (s : State) : State := { s with draw := s.draw + 1, env := s.env.tail }

theorem turn_of_block {s t : State} (h : s.turn = .block t) :
    s.rst = false ∧ (s.env = [] ∨ s.env.head? = some .run) ∧ t = turnState s := by
  unfold State.turn at h
  split_ifs at h with hr
  split at h
  · next he =>
    cases h
    exact ⟨by simpa using hr, .inl he, by simp [turnState, State.tick, he]⟩
  · next he =>
    cases h
    exact ⟨by simpa using hr, .inr (by simp [he]), rfl⟩
  · cases h

theorem turn_block {s : State} (hr : s.rst = false) (he : s.env = [] ∨ s.env.head? = some .run) :
    s.turn = .block (turnState s) := by
  unfold State.turn
  rw [if_neg (by simp [hr])]
  split
  · next he' => simp [turnState, State.tick, he']
  · rfl
  · next m rest h1 h2 =>
    rcases he with he | he
    · simp [he] at h2
    · rw [h2] at he; cases he; exact absurd rfl h1

/-- Everything a step can do: the reset step, a move of another agent, or the block's turn. -/
theorem step_next {s t : State} (h : step s = .next t) :
    s.Sound ∧
    ((s.rst = true ∧ t = s.tick.resetBlock) ∨
     (∃ m rest, s.rst = false ∧ s.env = m :: rest ∧ t = s.tick.popMove.applyMove m) ∨
     (s.rst = false ∧ (s.env = [] ∨ s.env.head? = some .run) ∧ runBlock (turnState s) = .next t)) := by
  obtain ⟨hs, h⟩ := guarded_next h
  refine ⟨hs, ?_⟩
  split at h
  · next u hu =>
    cases h
    unfold State.turn at hu
    split_ifs at hu with hr
    · cases hu; exact .inl ⟨hr, rfl⟩
    · split at hu <;> cases hu
      next m rest _ he => exact .inr (.inl ⟨m, rest, by simpa using hr, he, rfl⟩)
  · next u hu =>
    obtain ⟨h1, h2, rfl⟩ := turn_of_block hu
    exact .inr (.inr ⟨h1, h2, h⟩)

theorem step_of_block {s : State} (hs : s.Sound) (hr : s.rst = false)
    (he : s.env = [] ∨ s.env.head? = some .run) : step s = runBlock (turnState s) := by
  rw [step, guarded_of_sound hs, turn_block hr he]

theorem step_of_reset {s : State} (hs : s.Sound) (hr : s.rst = true) :
    step s = .next s.tick.resetBlock := by
  rw [step, guarded_of_sound hs]; simp [State.turn, hr]

theorem step_of_move {s : State} (hs : s.Sound) (hr : s.rst = false) {m : Move} {rest : List Move}
    (he : s.env = m :: rest) (hm : m ≠ .run) : step s = .next (s.tick.popMove.applyMove m) := by
  rw [step, guarded_of_sound hs]
  cases m <;> simp_all [State.turn]

theorem turnState_sound {s : State} (hs : s.Sound) : (turnState s).Sound := hs

/-! ## Runs -/

@[simp] theorem run_zero (s : State) : Host.Core.run core 0 s = .next s := rfl

/-- A run of one more step, from its first step. -/
theorem host_run_succ (M : Host.Core) {s t : M.State} (h : M.step s = .next t) (n : Nat) :
    M.run (n + 1) s = M.run n t := by simp [Host.Core.run, h]

/-- A run that answers a next state begins with a step that does. -/
theorem host_run_succ_inv (M : Host.Core) {s t : M.State} {n : Nat} (h : M.run (n + 1) s = .next t) :
    ∃ u, M.step s = .next u ∧ M.run n u = .next t := by
  rw [Host.Core.run] at h
  split at h
  · next u hu => exact ⟨u, hu, h⟩
  · cases h
  · cases h

theorem run_succ {s t : State} (h : step s = .next t) (n : Nat) :
    Host.Core.run core (n + 1) s = Host.Core.run core n t := host_run_succ core h n

theorem run_succ_inv {s t : State} {n : Nat} (h : Host.Core.run core (n + 1) s = .next t) :
    ∃ u, step s = .next u ∧ Host.Core.run core n u = .next t := host_run_succ_inv core h

theorem run_add {t : State} (n : Nat) : ∀ {m : Nat} {s : State}, Host.Core.run core m s = .next t →
    Host.Core.run core (m + n) s = Host.Core.run core n t := by
  intro m
  induction m with
  | zero => intro s h; cases h; rw [Nat.zero_add]
  | succ m ih =>
    intro s h
    obtain ⟨u, hu, h⟩ := run_succ_inv h
    rw [Nat.add_right_comm, run_succ hu, ih h]

/-- What every step keeps holds after any run. -/
theorem run_keeps {P : State → Prop} (hP : ∀ s t, P s → step s = .next t → P t) :
    ∀ n {s t : State}, P s → Host.Core.run core n s = .next t → P t := by
  intro n
  induction n with
  | zero => intro s t h hr; cases hr; exact h
  | succ n ih =>
    intro s t h hr
    obtain ⟨u, hu, hr⟩ := run_succ_inv hr
    exact ih (hP s u h hu) hr

end Sys2Proof.Laws
end

