-- ==== Sys2Proof/Laws/Call.lean ====
section
/-! SUPPORT. A latched call: the frame on offer, the frames of the functional definition, and how a
request transfer latches. -/

namespace Sys2Proof.Laws

open Sys2Proof.Machine

theorem legal_cap {c : Config} (h : c.legal = true) : 1 ≤ c.cap ∧ c.cap ≤ 255 := by
  simp only [Config.legal, Bool.and_eq_true, decide_eq_true_eq] at h
  exact ⟨h.1.1.1, h.1.1.2⟩

/-- The kind bits of frame `i` by the fragmentation flag. -/
def kindOf (frag : Bool) (i : Nat) : BitVec 3 := if frag then fragKind i else 0#3

/-- `nfr` and `frag` of a latched call satisfy the bound of R111. -/
theorem bound_of_latched {s : State} (hc : s.cfg.legal = true) (hl : s.CallLatched) :
    s.nfr.toNat ≤ 4 ∧ (s.frag = true ↔ 2 ≤ s.nfr.toNat) := by
  obtain ⟨-, -, -, hn, hf, -⟩ := hl
  have hC := (legal_cap hc).1
  refine ⟨hn ▸ nframes_le_four hC, ?_⟩
  rw [hf, decide_eq_true_eq, hn]
  rcases Nat.lt_or_ge (4 * s.cfg.cap) s.len with h | h
  · rw [nframes_oversize h]; omega
  · rcases Nat.lt_or_ge s.cfg.cap s.len with h1 | h1
    · rw [nframes_fragmented h1 h]
      have := (ceilDiv_bounds hC h1 h).1
      tauto
    · rw [nframes_single h1]; omega

/-- What a latched call offers as frame `k`: its chunk, zero-padded, under its tag and kind. -/
theorem frameOnOffer_of_latched {s : State} (hc : s.cfg.legal = true) (hl : s.CallLatched)
    (hk : s.k.toNat < s.nfr.toNat) :
    s.frameOnOffer = some (s.chunk s.k.toNat (seqField s.tag ++ kindOf s.frag s.k.toNat)) := by
  obtain ⟨hb4, hbf⟩ := bound_of_latched hc hl
  obtain ⟨-, ⟨hbuf, hlen, -⟩, ht, hn, -, -⟩ := hl
  have hC := (legal_cap hc).1
  have hfl : flagsOf s.frag s.k.toNat s.tag = some (seqField s.tag ++ kindOf s.frag s.k.toNat) := by
    cases hf : s.frag with
    | true =>
      rw [flagsOf, if_pos rfl, flagsFrag_of_tag ht (by omega)]
      simp [kindOf]
    | false =>
      have h0 : s.k.toNat = 0 := by rw [hf] at hbf; simp at hbf; omega
      have ht' : kindField s.tag = 0#3 := ht
      have := seqField_append_kindField s.tag
      rw [ht'] at this
      simp [flagsOf, h0, flagsSingle, kindOf, this]
  have hi : s.k.toNat < nframes s.len s.cfg.cap := hn ▸ hk
  have hin := chunk_in_input hC hi
  rw [State.frameOnOffer, hfl, slice_of_lt hi, hbuf]
  exact compose_ofBytes s.inBuf.bytes _ (by omega) (Nat.min_le_left _ _)

/-- The frames of the latched call, one by one. -/
theorem latchedFrames_get {s : State} (hc : s.cfg.legal = true) (hl : s.CallLatched) {i : Nat}
    (hi : i < s.nfr.toNat) :
    s.latchedFrames[i]? = some (s.chunk i (seqField s.tag ++ kindOf s.frag i)) := by
  obtain ⟨hb4, hbf⟩ := bound_of_latched hc hl
  obtain ⟨-, ⟨-, hlen, -⟩, ht, hn, hf, -⟩ := hl
  have hC := (legal_cap hc).1
  have hchunk : ∀ fl, s.chunk i fl = chunkFrame s.inBuf.bytes s.cfg.cap i fl := by
    intro fl; rw [chunkFrame_eq, State.chunk, hlen]
  have hover : s.inBuf.bytes.length ≤ 4 * s.cfg.cap := by
    by_contra h
    rw [hn, hlen, nframes_oversize (by omega)] at hi
    omega
  rw [State.latchedFrames, hchunk]
  rcases Nat.lt_or_ge s.cfg.cap s.inBuf.bytes.length with h1 | h1
  · have hfrag : s.frag = true := by rw [hf, decide_eq_true_eq]; omega
    rw [hn, hlen, nframes_fragmented h1 hover] at hi
    rw [callFrames_fragmented h1 hover, List.getElem?_map, List.getElem?_range hi]
    have hi4 := (ceilDiv_bounds hC h1 hover).2
    simp [refFlags_of_tag ht (show i < 4 by omega), hfrag, kindOf]
  · have hfrag : s.frag = false := by rw [hf, decide_eq_false_iff_not]; omega
    rw [hn, hlen, nframes_single h1] at hi
    have hi0 : i = 0 := by omega
    have := seqField_append_kindField s.tag
    rw [show kindField s.tag = 0#3 from ht] at this
    simp [callFrames_single h1, hi0, hfrag, kindOf, this]

theorem latchedFrames_length {s : State} (hl : s.CallLatched) :
    s.latchedFrames.length = s.nfr.toNat := by
  obtain ⟨-, ⟨-, hlen, -⟩, -, hn, -, -⟩ := hl
  rw [State.latchedFrames, callFrames_length, hn, hlen]

/-- After a request transfer: the call is latched, `k = 0`, and the phase is the path's. -/
theorem latched_of_accept {s : State} {r : Request} (hc : s.cfg.legal = true) (hw : r.wf s.cfg = true) :
    (s.latchRequest r).choosePath.CallLatched ∧ (s.latchRequest r).choosePath.k = 0#3 ∧
    (s.latchRequest r).choosePath.phase =
      (if 4 * s.cfg.cap < r.input.length then phaseResp else phaseEmit) := by
  have hC := (legal_cap hc).1
  obtain ⟨k1, k2, k3, k4, k5, k6, -⟩ := choosePath_kept (s.latchRequest r)
  obtain ⟨p1, p2, p3, p4⟩ := choosePath_path (s.latchRequest r) hC
  refine ⟨⟨k6, ⟨?_, ?_, ?_⟩, ?_, ?_, ?_, ?_⟩, k5, p4⟩
  · rw [k2]; simp
  · rw [k2, k3]; simp
  · simp only [Request.wf, Bool.and_eq_true, decide_eq_true_eq] at hw
    rw [k1, k3]; simp only [latchRequest_len, latchRequest_cfg]; omega
  · rw [k4]; exact kindField_seqTag _
  · rw [p1, k1, k3]
  · rw [p2, k1, k3]
  · rw [p3, k1, k3]

end Sys2Proof.Laws
end

