-- ==== Sys2Proof/Laws/PerInstr.lean ====
section
/-! SUPPORT. The family RowMatch: the word an operation encodes to lies in its own row of the opcode table,
by the row's format, mask and match. -/

namespace Sys2Proof.Laws

open Sys2Proof.Machine

/-- A row of spec/opcode_table.json: format REQ, FLAGS8 or RSP4 with its mask and match. -/
inductive TableRow where
  | req
  | flags8 (mask value : Byte)
  | rsp4 (mask value : BitVec 4)

/-- The row of each operation, from the table's mask and match columns. -/
def tableRow : Instr → TableRow
  | .fragment _ => .req
  | .frameSingle _ => .flags8 0x07 0x00
  | .frameFrag0 _ => .flags8 0x07 0x01
  | .frameFrag1 _ => .flags8 0x07 0x03
  | .frameFrag2 _ => .flags8 0x07 0x05
  | .frameFrag3 _ => .flags8 0x07 0x07
  | .rspOk _ => .rsp4 0x1 0x0
  | .rspOversize => .rsp4 0xF 0x1

/-- A word lies in a row. -/
def TableRow.has : TableRow → ChannelWord → Prop
  | .req, .req _ => True
  | .flags8 mask value, .frm b => b &&& mask = value
  | .rsp4 mask value, .rsp w => w &&& mask = value
  | _, _ => False

/-- The operation's word lies in the operation's row. -/
def RowMatch.Statement (i : Instr) : Prop := (tableRow i).has (encode i)

theorem RowMatch.fragment (r : Request) : RowMatch.Statement (.fragment r) := trivial

theorem RowMatch.frameSingle (q : BitVec 5) : RowMatch.Statement (.frameSingle q) := by
  show (q ++ 0b000#3 : Byte) &&& 0x07 = 0x00; revert q; decide

theorem RowMatch.frameFrag0 (q : BitVec 5) : RowMatch.Statement (.frameFrag0 q) := by
  show (q ++ 0b001#3 : Byte) &&& 0x07 = 0x01; revert q; decide

theorem RowMatch.frameFrag1 (q : BitVec 5) : RowMatch.Statement (.frameFrag1 q) := by
  show (q ++ 0b011#3 : Byte) &&& 0x07 = 0x03; revert q; decide

theorem RowMatch.frameFrag2 (q : BitVec 5) : RowMatch.Statement (.frameFrag2 q) := by
  show (q ++ 0b101#3 : Byte) &&& 0x07 = 0x05; revert q; decide

theorem RowMatch.frameFrag3 (q : BitVec 5) : RowMatch.Statement (.frameFrag3 q) := by
  show (q ++ 0b111#3 : Byte) &&& 0x07 = 0x07; revert q; decide

theorem RowMatch.rspOk (n : BitVec 3) : RowMatch.Statement (.rspOk n) := by
  show (n ++ 0b0#1 : BitVec 4) &&& 0x1 = 0x0; revert n; decide

theorem RowMatch.rspOversize : RowMatch.Statement .rspOversize := by
  show (0b0001#4 &&& 0xF : BitVec 4) = 0x1; decide

end Sys2Proof.Laws
end

