-- ==== Sys2Proof/Tests/Slice0.lean ====
section
/-! SUPPORT. Small tests, with expected values from spec/95_test_vectors.md or by hand from the rules named;
and for each statement with hypotheses a witness that meets them. -/

namespace Sys2Proof.Tests

open Sys2Proof.Machine

/-! ## Helpers -/

/-- The small configuration of the vectors F1 to F5 and P2. -/
def c4 : Config := ⟨4, 10, 32⟩

/-- The 11 input bytes of P2. -/
def in11 : List Byte := [1, 2, 3, 4, 5, 6, 7, 8, 9, 10, 11]

/-- `n` bytes `AA`, as in P2. -/
def inAA (n : Nat) : List Byte := List.replicate n 0xAA#8

/-- A request as the caller presents it. -/
def req (input : List Byte) (seq : Nat) : Request := ⟨input, input.length, seq⟩

/-- An idle block with one request on offer and everything accepted. -/
def idleWith (r : Request) : State :=
  { State.resetWith c4 with pending := [r], frmReady := true, rspReady := true }

/-- A block in EMIT with the call of `input` and tag `tag` latched by hand. -/
def emitting (input : List Byte) (tag : Byte) (frag : Bool) (nfr k : BitVec 3) : State :=
  { State.resetWith c4 with
    phase := phaseEmit, inBuf := Memory.ofBytes input, len := input.length, tag := tag, frag := frag
    nfr := nfr, k := k, written := true, frmReady := true }

/-- A block in RESP with a response on offer. -/
def responding (status : Bool) (nfr : BitVec 3) : State :=
  { State.resetWith c4 with
    phase := phaseResp, status := status, nfr := nfr, k := nfr, written := true, rspReady := true }

/-- A value of the next state. -/
def look {α : Type} (a : Answer) (f : State → α) : Option α :=
  match a with
  | .next t => some (f t)
  | .fault _ => none
  | .refused _ => none

/-- The fault of an answer. -/
def faultOf : Answer → Option Fault
  | .next _ => none
  | .fault f => some f
  | .refused _ => none

/-- The refusal of an answer. -/
def refusalOf : Answer → Option Refusal
  | .next _ => none
  | .fault _ => none
  | .refused r => some r

/-! ## WellFormed and elaboration refuse ill-formed terms -/

theorem test_wf_request : (req in11 2).wf c4 = true := by decide
theorem test_wf_refuses_wrong_len : Request.wf c4 ⟨in11, 10, 2⟩ = false := by decide
theorem test_wf_refuses_wide_seq : Request.wf c4 ⟨in11, 11, 2 ^ 32⟩ = false := by decide
theorem test_wf_refuses_wide_len : Request.wf ⟨4, 3, 32⟩ (req in11 2) = false := by decide
theorem test_wf_refuses_count_zero : (Instr.rspOk 0).wf c4 = false := by decide
theorem test_wf_refuses_count_five : (Instr.rspOk 5).wf c4 = false := by decide
theorem test_elaborate_ends : Config.elaborate 1 10 5 = some ⟨1, 10, 5⟩ ∧ Config.elaborate 255 10 5 = some ⟨255, 10, 5⟩ := by
  decide
theorem test_elaborate_refuses : Config.elaborate 0 10 5 = none ∧ Config.elaborate 256 10 5 = none ∧
    Config.elaborate 180 9 5 = none ∧ Config.elaborate 180 10 4 = none := by decide

/-! ## Decoding (words written out from 30_encoding.md and the vectors 2.2) -/

theorem test_decode_request : decode (.req (req [0x7F] 5)) = .ok (.fragment (req [0x7F] 5)) := by decide
theorem test_decode_single : decode (.frm 0b00001000#8) = .ok (.frameSingle 1) := by decide
theorem test_decode_frag0 : decode (.frm 0b00101001#8) = .ok (.frameFrag0 5) := by decide
theorem test_decode_frag1 : decode (.frm 0b00101011#8) = .ok (.frameFrag1 5) := by decide
theorem test_decode_frag2 : decode (.frm 0b00101101#8) = .ok (.frameFrag2 5) := by decide
theorem test_decode_frag3 : decode (.frm 0b11111111#8) = .ok (.frameFrag3 31) := by decide
theorem test_decode_rsp_ok : decode (.rsp 0b1000#4) = .ok (.rspOk 4) := by decide
theorem test_decode_rsp_oversize : decode (.rsp 0b0001#4) = .ok .rspOversize := by decide
theorem test_decode_reserved_flags : decode (.frm 0x02) = .error (.reservedFlags 0x02) ∧
    decode (.frm 0xFA) = .error (.reservedFlags 0xFA) := by decide
theorem test_decode_reserved_response : decode (.rsp 0b0000#4) = .error (.reservedResponse 0) ∧
    decode (.rsp 0b0011#4) = .error (.reservedResponse 3) := by decide
theorem test_table_word : decodeTableWord 8 0x07 = some (.frameFrag3 0) ∧
    decodeTableWord 8 0x02 = some (.rspOk 1) ∧ decodeTableWord 4 0x01 = some .rspOversize ∧
    decodeTableWord 0 0 = some (.fragment (req [] 0)) := by decide

/-! ## Tag, flags, chunks and frames (vectors 2.1 to 2.4) -/

theorem test_seqTag : seqTag 5 = 0x28 ∧ seqTag 31 = 0xF8 ∧ seqTag 32 = 0x00 ∧ seqTag 0x12345678 = 0xC0 := by decide
theorem test_seqTag_negative : seqTag (presentedSeq c4 (-1)) = 0xF8 ∧ seqTag (presentedSeq c4 (-32)) = 0x00 ∧
    seqTag (presentedSeq c4 (-33)) = 0xF8 := by decide
theorem test_flags_kinds : flagsSingle 0x28 = 0x28 ∧ flagsFrag 0 0x28 = some 0x29 ∧ flagsFrag 1 0x28 = some 0x2B ∧
    flagsFrag 2 0x28 = some 0x2D ∧ flagsFrag 3 0x28 = some 0x2F ∧ flagsFrag 4 0x28 = none := by decide
theorem test_nframes : nframes 180 180 = 1 ∧ nframes 181 180 = 2 ∧ nframes 361 180 = 3 ∧ nframes 541 180 = 4 ∧
    nframes 720 180 = 4 ∧ nframes 721 180 = 0 ∧ nframes 0 1 = 1 := by decide
theorem test_slice : slice 200 180 1 = some (180, 20) ∧ slice 0 180 0 = some (0, 0) ∧ slice 200 180 2 = none := by decide
theorem test_compose_f1 : compose (Memory.ofBytes in11) 4 8 3 0x05 = some ⟨3, 0x05, [9, 10, 11, 0]⟩ := by decide
theorem test_compose_f3 : compose (Memory.ofBytes []) 4 0 0 0x08 = some ⟨0, 0x08, [0, 0, 0, 0]⟩ := by decide
theorem test_fragment_f5 : fragmentCall (List.replicate 5 0xFF) 0 4 =
    .frames [⟨4, 0x01, [0xFF, 0xFF, 0xFF, 0xFF]⟩, ⟨1, 0x03, [0xFF, 0, 0, 0]⟩] := by decide
theorem test_fragment_oversize : fragmentCall (inAA 17) 3 4 = .oversize 17 := by decide
theorem test_ramp : (BytesExpr.ramp 3).eval = [0, 1, 2] := by decide

theorem test_render_frame : renderFrame ⟨3, 0x05, [9, 10, 11, 0]⟩ = "FRAME len=3 flags=0x05 payload=[09 0A 0B 00]" ∧
    renderResponse ⟨true, 0⟩ = "RSP status=OVERSIZE count=0" := by decide

/-! ## FRAGMENT (P2, vectors 2.5) -/

theorem test_fragment_latches : look (exec (.fragment (req in11 2)) (idleWith (req in11 2)))
    (fun t => (t.phase, t.nfr, t.frag, t.tag, t.k, t.len)) = some (phaseEmit, 3, true, 0x10, 0, 11) := by decide
theorem test_fragment_oversize_accept : look (exec (.fragment (req (inAA 17) 3)) (idleWith (req (inAA 17) 3)))
    (fun t => (t.phase, t.nfr, t.status, t.tag)) = some (phaseResp, 0, true, 0x18) := by decide

/-! ## Frame kinds (P2) -/

theorem test_single : look (exec (.frameSingle 5) (emitting [0x7F] 0x28 false 1 0)) (fun t => (t.obs, t.phase)) =
    some ([.frm ⟨1, 0x28, [0x7F, 0, 0, 0]⟩], phaseResp) := by decide
theorem test_frag0 : look (exec (.frameFrag0 2) (emitting in11 0x10 true 3 0)) (fun t => (t.obs, t.phase, t.k)) =
    some ([.frm ⟨4, 0x11, [1, 2, 3, 4]⟩], phaseEmit, 1) := by decide
theorem test_frag1 : look (exec (.frameFrag1 2) (emitting in11 0x10 true 3 1)) (fun t => (t.obs, t.phase, t.k)) =
    some ([.frm ⟨4, 0x13, [5, 6, 7, 8]⟩], phaseEmit, 2) := by decide
theorem test_frag2 : look (exec (.frameFrag2 2) (emitting in11 0x10 true 3 2)) (fun t => (t.obs, t.phase, t.k)) =
    some ([.frm ⟨3, 0x15, [9, 10, 11, 0]⟩], phaseResp, 3) := by decide
theorem test_frag3 : look (exec (.frameFrag3 4) (emitting (inAA 16) 0x20 true 4 3)) (fun t => (t.obs, t.phase, t.k)) =
    some ([.frm ⟨4, 0x27, [0xAA, 0xAA, 0xAA, 0xAA]⟩], phaseResp, 4) := by decide
theorem test_frag_of_other_index_waits : look (exec (.frameFrag2 2) (emitting in11 0x10 true 3 1))
    (fun t => (t.obs, t.k)) = some ([], 1) := by decide

/-! ## Responses, reset, faults -/

theorem test_rsp_ok : look (exec (.rspOk 3) (responding false 3)) (fun t => (t.obs, t.phase)) =
    some ([.rsp ⟨false, 3⟩], phaseIdle) := by decide
theorem test_rsp_oversize : look (exec .rspOversize (responding true 0)) (fun t => (t.obs, t.phase)) =
    some ([.rsp ⟨true, 0⟩], phaseIdle) := by decide
theorem test_response_words : responseWord ⟨false, 1⟩ = 0b0010 ∧ responseWord ⟨false, 4⟩ = 0b1000 ∧
    responseWord ⟨true, 0⟩ = 0b0001 := by decide
theorem test_reset_in_call : look (step { emitting in11 0x10 true 3 1 with rst := true, obs := [.rsp ⟨false, 1⟩] })
    (fun t => (t.phase, t.obs, t.outputs.frmValid)) = some (phaseIdle, [.rsp ⟨false, 1⟩], false) := by decide
theorem test_fault_phase : faultOf (step { State.resetWith c4 with phase := 0b11 }) = some .invariantPhase := by decide
theorem test_fault_unwritten :
    faultOf (step { State.resetWith c4 with phase := phaseEmit }) = some .invariantUnwritten := by decide
theorem test_fault_frame_bound :
    faultOf (step (emitting (inAA 16) 0x20 true 5 4)) = some .invariantFrameBound := by decide
theorem test_fault_input_range : faultOf (step { emitting in11 0x10 true 3 1 with len := 40 }) = some .inputRange ∧
    faultOf (step { emitting in11 0x10 true 3 1 with inBuf := [] }) = some .inputRange := by decide
theorem test_refusal_response_word : refusalOf (step (responding true 3)) = some .neverProducedWord := by decide
theorem test_fetch_word_runs : look (step ((State.resetWith c4).withFetchWord 8 0x2B)) (fun t => t.obs) =
    some [.frm ⟨1, 0x2B, [0, 0, 0, 0]⟩] := by decide
theorem test_fetch_word_request : look (step ((State.resetWith c4).withFetchWord 0 3)) (fun t => (t.phase, t.tag)) =
    some (phaseEmit, 0x18) := by decide

/-! ## Witnesses of the statements' hypotheses -/

theorem witness_DecodeEncodeAgree : (Instr.rspOk 4).wf c4 = true ∧ (Instr.fragment (req in11 2)).wf c4 = true ∧
    (Instr.frameFrag3 31).wf c4 = true := by decide
theorem witness_EncodeDecodeAgree : decode (.frm 0xFF) = .ok (.frameFrag3 31) ∧ decode (.rsp 1) = .ok .rspOversize := by
  decide
theorem witness_SequenceTagIsTheLowFiveBits : 1 % 32 = 33 % 32 ∧ c4.legal = true := by decide
theorem witness_FlagsByteIsThreeDisjointFields : (3#3).toNat < 4 ∧ (true = true ∨ (3#3) = 0#3) ∧
    (0#3).toNat < 4 ∧ (false = true ∨ (0#3) = 0#3) := by decide
theorem witness_FrameCountByPath : 1 ≤ 4 ∧ 4 * 4 < 17 ∧ 4 ≤ 4 ∧ (4 < 5 ∧ 5 ≤ 4 * 4) ∧ (4 < 16 ∧ 16 ≤ 4 * 4) := by decide
theorem witness_ChunkLengthsByPath : (4 < 5 ∧ 5 ≤ 4 * 4) ∧ 0 + 1 < nframes 5 4 ∧ (4 < 16 ∧ 16 ≤ 4 * 4) ∧
    2 + 1 < nframes 16 4 ∧ 0 ≤ 4 := by decide
theorem witness_ComposedFrameIsChunkThenZeros : 8 + 3 ≤ in11.length ∧ 3 ≤ 4 ∧ 4 ≤ 255 ∧ 2 < 3 ∧ (3 ≤ 3 ∧ 3 < 4) := by
  decide
theorem witness_ComposeReadsOnlyItsChunk :
    (∀ j, j < 1 → Memory.read (Memory.ofBytes [1, 2]) (0 + j) = Memory.read (Memory.ofBytes [1, 3]) (0 + j)) ∧
    Memory.ofBytes [1, 2] ≠ Memory.ofBytes [1, 3] ∧
    2 < 3 ∧ 3 ≤ 4 ∧ Memory.read (Memory.ofBytes [1, 2]) (0 + 2) = none := by decide
theorem witness_LengthsAndBytesAreConserved : (inAA 16).length ≤ 4 * 4 ∧ 4 * 4 < (inAA 17).length := by decide
theorem witness_CallFramesHaveOneTagAndRisingIndex :
    ((inAA 4).length ≤ 4 ∧ ∃ f, (callFrames (inAA 4) 0x20 4)[0]? = some f) ∧
    ((inAA 16).length ≤ 4 * 4 ∧ 4 < (inAA 16).length ∧ 2 + 1 < (callFrames (inAA 16) 0x20 4).length ∧
      ∃ f, (callFrames (inAA 16) 0x20 4)[2]? = some f) :=
  ⟨⟨by decide, _, rfl⟩, by decide, by decide, by decide, _, rfl⟩
theorem witness_FragmentLatchesAndChoosesPath : ∀ r ∈ [req (inAA 17) 3, req (inAA 4) 3, req [] 3, req (inAA 5) 3, req (inAA 16) 3],
    (idleWith r).Sound ∧ (idleWith r).phase = phaseIdle ∧ (idleWith r).pending.head? = some r ∧
    r.wf (idleWith r).cfg = true := by decide
theorem witness_OversizeReportsAndReturnsToIdle : (idleWith (req (inAA 17) 3)).Sound ∧
    (req (inAA 17) 3).wf c4 = true ∧ (idleWith (req (inAA 17) 3)).rspReady = true ∧ 4 * 4 < (inAA 17).length := by decide
theorem witness_BusyBlockLeavesRequestsOnOffer : (emitting in11 0x10 true 3 1).phase ≠ phaseIdle ∧
    (emitting in11 0x10 true 3 1).Sound ∧ (look (step (emitting in11 0x10 true 3 1)) (fun t => t.k)) = some 2 := by decide
theorem witness_UnpresentableRequestIsRefused : (idleWith ⟨in11, 10, 2⟩).Sound ∧ Request.wf c4 ⟨in11, 10, 2⟩ = false := by
  decide
theorem witness_FragmentFrame : (look (exec (.fragment (req in11 2)) (idleWith (req in11 2))) (fun t => t.len)) = some 11 ∧
    (look (exec (.fragment (req in11 2)) (responding false 3)) (fun t => t.len)) = some 0 := by decide
theorem witness_HighCounterBitsReachNothing : 2 % 32 = 34 % 32 ∧ 5 ≤ 6 ∧ (req in11 2).wf c4 = true ∧
    (req in11 34).wf ((State.resetWith c4).withSeqBits 6).cfg = true ∧ (State.resetWith c4).Sound ∧
    (look (exec (.frameFrag1 2) (emitting in11 0x10 true 3 1)) (fun t => t.k)) = some 2 ∧
    (∀ r, Instr.frameFrag1 2 ≠ .fragment r) :=
  ⟨by decide, by decide, by decide, by decide, by decide, by decide, by simp⟩
theorem witness_AcceptForgetsEarlierCalls :
    let s := idleWith (req in11 2)
    let s' := { s with tag := 0x38, nfr := 2, k := 2, frag := true, status := true, written := true }
    s.Sound ∧ s'.phase = phaseIdle ∧ s' ≠ s ∧ s'.cfg = s.cfg ∧ s'.pending = s.pending ∧ s'.obs = s.obs ∧
      s.pending.head? = some (req in11 2) ∧ (req in11 2).wf s.cfg = true := by decide
theorem witness_FrameSingleTransfers : (emitting [0x7F] 0x28 false 1 0).Offers false 0 5 ∧
    (emitting [] 0x08 false 1 0).Offers false 0 1 ∧ (emitting (inAA 4) 0x08 false 1 0).Offers false 0 1 := by decide
theorem witness_FragmentFramesTransfer :
    (∀ s ∈ [emitting (inAA 5) 0x10 true 2 0, emitting (inAA 16) 0x10 true 4 0], s.Offers true 0 2) ∧
    (∀ s ∈ [emitting (inAA 5) 0x10 true 2 1, emitting in11 0x10 true 3 1], s.Offers true 1 2) ∧
    (∀ s ∈ [emitting in11 0x10 true 3 2, emitting (inAA 16) 0x10 true 4 2], s.Offers true 2 2) ∧
    (∀ s ∈ [emitting (inAA 13) 0x20 true 4 3, emitting (inAA 16) 0x20 true 4 3], s.Offers true 3 4) :=
  ⟨by decide, by decide, by decide, by decide⟩
theorem witness_FrameNotTakenChangesNothing : encode (.frameFrag2 2) = .frm 0x15 ∧ (State.resetWith c4).Sound ∧
    (State.resetWith c4).phase ≠ phaseEmit ∧
    ({ emitting in11 0x10 true 3 2 with frmReady := false } : State).Sound ∧
    (emitting in11 0x10 true 3 1).Sound ∧
    (emitting in11 0x10 true 3 1).frameOnOffer = some ⟨4, 0x13, [5, 6, 7, 8]⟩ ∧ (0x13 : Byte) ≠ 0x15 := by decide
theorem witness_FrameKindsFrame : encode (.frameFrag1 2) = .frm 0x13 ∧
    (look (exec (.frameFrag1 2) (emitting in11 0x10 true 3 1)) (fun t => t.k)) = some 2 := by decide
theorem witness_ResponsesTransfer : (responding false 3).Sound ∧ (responding false 3).rspReady = true ∧
    (responding false 3).status = false ∧ (responding true 0).Sound ∧ (responding true 0).status = true ∧
    (responding true 0).nfr = 0 := by decide
theorem witness_ResponseNotTakenChangesNothing : encode (.rspOk 2) = .rsp 0b0100 ∧ (State.resetWith c4).Sound ∧
    ({ responding false 2 with rspReady := false } : State).Sound ∧ (responding false 3).Sound ∧
    responseWord (responding false 3).responseOnOffer ≠ 0b0100 := by decide
theorem witness_ResponsesFrame : encode .rspOversize = .rsp 0b0001 ∧
    (look (exec .rspOversize (responding true 0)) (fun t => t.phase)) = some phaseIdle := by decide
theorem witness_StepRunsTheDecodedOperation : (emitting in11 0x10 true 3 1).Sound ∧
    (emitting in11 0x10 true 3 1).fetchWord = some (.frm 0x13) ∧ decode (.frm 0x13) = .ok (.frameFrag1 2) ∧
    ({ responding false 3 with env := [.run] } : State).Sound ∧ (responding false 3).fetchWord = some (.rsp 0b0110) ∧
    decode (.rsp 0b0110) = .ok (.rspOk 3) ∧
    (idleWith (req in11 2)).fetchWord = some (.req (req in11 2)) := by decide
theorem witness_ResetTakesPriority : ({ emitting in11 0x10 true 3 1 with rst := true } : State).Sound ∧
    ({ responding false 3 with rst := true } : State).Sound ∧ ({ idleWith (req in11 2) with rst := true } : State).Sound := by
  decide
theorem witness_ResetStepTouchesNoOtherAgent : ({ idleWith (req in11 2) with rst := true } : State).rst = true ∧
    (look (step { idleWith (req in11 2) with rst := true }) (fun t => t.pending)) = some [req in11 2] := by decide
theorem witness_OtherAgentsMoveOnlyTheirOwnLines : ∀ m ∈ [Move.present (req in11 2), .sinkReady true, .callerReady true, .assertReset],
    ({ emitting in11 0x10 true 3 1 with env := [m] } : State).Sound := by decide
theorem witness_OfferedItemsStayUntilTransferred :
    ((emitting in11 0x10 true 3 1).outputs.frmValid = true ∧
      (look (step { emitting in11 0x10 true 3 1 with frmReady := false }) (fun t => t.k)) = some 1 ∧
      (look (step (emitting in11 0x10 true 3 1)) (fun t => t.k)) = some 2) ∧
    ((responding false 3).outputs.rspValid = true ∧ (look (step (responding false 3)) (fun t => t.phase)) = some phaseIdle) ∧
    ((idleWith (req in11 2)).outputs.reqReady = true ∧
      (look (step (idleWith (req in11 2))) (fun t => t.pending)) = some []) := by decide
theorem witness_PhaseMovesOnlyByTheFourTransitions :
    (look (step (idleWith (req in11 2))) (fun t => t.phase)) = some phaseEmit ∧
    (look (step (idleWith (req (inAA 17) 2))) (fun t => t.phase)) = some phaseResp ∧
    (look (step (emitting in11 0x10 true 3 1)) (fun t => t.phase)) = some phaseEmit ∧
    (look (step (emitting in11 0x10 true 3 2)) (fun t => t.phase)) = some phaseResp ∧
    (look (step (responding false 3)) (fun t => t.phase)) = some phaseIdle := by decide
theorem witness_ParametersNeverChange : (look (exec (.rspOk 3) (responding false 3)) (fun t => t.cfg)) = some c4 ∧
    (look (step (idleWith (req in11 2))) (fun t => t.cfg)) = some c4 := by decide
theorem witness_LatchedInputIsASnapshot :
    (look (step (emitting in11 0x10 true 3 1)) (fun t => t.inBuf)) = some (Memory.ofBytes in11) := by decide
theorem witness_InputSpaceStaysCanonical : Memory.wf (emitting in11 0x10 true 3 1).inBuf := by decide
theorem witness_WithheldReceiverLeavesTheBlockStuck :
    (let s := { emitting in11 0x10 true 3 1 with frmReady := false }
     s.Sound ∧ s.rst = false ∧ s.env = [] ∧ s.phase = phaseEmit) ∧
    (let s := { responding false 3 with rspReady := false }
     s.Sound ∧ s.rst = false ∧ s.env = [] ∧ s.phase = phaseResp) := by decide
theorem witness_UnreachableStatesFault : c4.legal = true ∧
    (∀ s ∈ [emitting (inAA 16) 0x20 true 5 4, emitting in11 0x10 true 3 3, emitting in11 0x10 false 3 1],
      ¬ (s.k.toNat < s.nfr.toNat ∧ s.nfr.toNat ≤ 4 ∧ (s.frag = true ↔ 2 ≤ s.nfr.toNat))) := by decide
theorem witness_BadConfigurationIsRefused : ¬ (1 < 1 ∨ 255 < 1 ∨ 10 < 10 ∨ 5 < 5) ∧
    ¬ (255 < 1 ∨ 255 < 255 ∨ 10 < 10 ∨ 5 < 5) ∧ ¬ (180 < 1 ∨ 255 < 180 ∨ 10 < 10 ∨ 32 < 5) := by decide
theorem witness_InvariantHoldsAfterReset : c4.legal = true ∧ Config.ofExamples.legal = true := by decide
theorem witness_NothingRunsUnderABadConfiguration : Config.elaborate 0 10 5 = none ∧ Config.elaborate 256 10 5 = none := by
  decide

/-- The first frame of a two-frame call is out: a state inside a call that has the invariant. -/
def inCall : State :=
  { emitting (inAA 5) 0x10 true 2 1 with
    obs := [.rsp ⟨false, 1⟩, .frm ⟨4, 0x11, [0xAA, 0xAA, 0xAA, 0xAA]⟩] }

theorem witness_StepKeepsTheInvariant : inCall.Inv where
  legal := by decide
  phase := by decide
  buffer := by decide
  tagLow := by decide
  nfrBound := by decide
  kBound := by decide
  call := fun _ => by decide
  emit := fun _ => ⟨by decide, [.rsp ⟨false, 1⟩], by decide⟩
  resp := fun h => absurd h (by decide)

theorem witness_StepKeepsTheInvariant_step : (look (step inCall) (fun t => t.phase)) = some phaseResp := by decide
theorem witness_InvariantStatesNeverStop : inCall.CallerWf := ⟨by decide, by decide⟩
theorem witness_NeverProducedWordsAreNotOffered : inCall.outputs.frmValid = true := by decide

/-- A call of one frame whose response is on offer. -/
def afterCall : State :=
  { responding false 1 with
    inBuf := Memory.ofBytes [0x7F], len := 1, tag := 0x28, obs := [.frm ⟨1, 0x28, [0x7F, 0, 0, 0]⟩] }

theorem afterCall_inv : afterCall.Inv where
  legal := by decide
  phase := by decide
  buffer := by decide
  tagLow := by decide
  nfrBound := by decide
  kBound := by decide
  call := fun _ => by decide
  emit := fun h => absurd h (by decide)
  resp := fun _ => ⟨by decide, [], by decide⟩

/-- An idle state with the invariant and a request on offer. -/
def beforeCall : State := idleWith (req in11 2)

theorem beforeCall_inv : beforeCall.Inv where
  legal := by decide
  phase := by decide
  buffer := by decide
  tagLow := by decide
  nfrBound := by decide
  kBound := by decide
  call := fun h => absurd rfl h
  emit := fun h => absurd h (by decide)
  resp := fun h => absurd h (by decide)

theorem witness_ResponseEndsExactlyTheCall_begins : beforeCall.Inv ∧ beforeCall.rst = false ∧
    beforeCall.phase = phaseIdle ∧ (look (step beforeCall) (fun t => t.phase)) = some phaseEmit :=
  ⟨beforeCall_inv, by decide, by decide, by decide⟩
theorem witness_ResponseEndsExactlyTheCall_goes_on : inCall.Inv ∧ inCall.CallFrom [.rsp ⟨false, 1⟩] ∧
    inCall.rst = false ∧ (look (step inCall) (fun t => t.phase)) = some phaseResp :=
  ⟨witness_StepKeepsTheInvariant, ⟨by decide, by decide⟩, by decide, by decide⟩
theorem witness_ResponseEndsExactlyTheCall_ends : afterCall.Inv ∧ afterCall.CallFrom [] ∧ afterCall.rst = false ∧
    seqTag 5 = afterCall.tag ∧ (look (step afterCall) (fun t => t.phase)) = some phaseIdle :=
  ⟨afterCall_inv, ⟨by decide, by decide⟩, by decide, by decide, by decide⟩

theorem witness_CallTakesItsFramesPlusTwoTransfers :
    let s := idleWith (req in11 2)
    s.Sound ∧ s.phase = phaseIdle ∧ s.pending = req in11 2 :: [] ∧ (req in11 2).wf s.cfg = true ∧ s.frmReady = true ∧
      s.rspReady = true ∧ s.rst = false ∧ s.env = [] := by decide
theorem witness_RequestsAreServedOneAfterAnother :
    let s := State.ofProgram c4 [req in11 2, req (inAA 17) 3]
    s.Sound ∧ s.phase = phaseIdle ∧ (∀ r ∈ s.pending, r.wf s.cfg = true) ∧ s.frmReady = true ∧ s.rspReady = true ∧
      s.rst = false ∧ s.env = [] := by decide

end Sys2Proof.Tests
end

section
/-! SUPPORT. Proofs for the scope of the block (00_scope.md R5 to R9): the parameters stay what they were at
elaboration, `SEQ_BITS` and the counter's high bits reach nothing, and a call leaves nothing to the next. -/

namespace Sys2Proof.Proofs

open Sys2Proof.Machine Sys2Proof.Laws

/-! ## The parameters -/

@[simp] theorem choosePath_cfg (s : State) : s.choosePath.cfg = s.cfg := (choosePath_kept s).1

@[simp] theorem applyMove_cfg (s : State) (m : Move) : (s.applyMove m).cfg = s.cfg := by
  cases m <;> rfl

theorem exec_cfg {i : Instr} {s t : State} (h : exec i s = .next t) : t.cfg = s.cfg := by
  cases he : encode i with
  | req r =>
    rw [exec_of_encode_req he] at h
    obtain ⟨-, ⟨-, -, -, rfl⟩ | rfl⟩ := acceptRequest_next h <;> simp
  | frm b =>
    rw [exec_of_encode_frm he] at h
    obtain ⟨-, ⟨f, -, -, -, -, rfl⟩ | rfl⟩ := takeFrame_next h <;> simp
  | rsp w =>
    rw [exec_of_encode_rsp he] at h
    obtain ⟨-, ⟨-, -, -, rfl⟩ | rfl⟩ := takeResponse_next h <;> simp

theorem runBlock_cfg {s t : State} (h : runBlock s = .next t) : t.cfg = s.cfg := by
  obtain ⟨-, rfl⟩ | ⟨r, -, -, -, rfl⟩ | ⟨f, -, -, -, rfl⟩ | ⟨-, -, rfl⟩ := runBlock_next h <;> simp

theorem step_cfg {s t : State} (h : step s = .next t) : t.cfg = s.cfg := by
  obtain ⟨-, ⟨-, rfl⟩ | ⟨m, rest, -, -, rfl⟩ | ⟨-, -, hrun⟩⟩ := step_next h
  · simp
  · simp
  · simpa [turnState] using runBlock_cfg hrun

/-- Settles O37: every operation and every move is an update that keeps `cfg`, the reset step included. -/
theorem parametersNeverChange : Obligations.ParametersNeverChange :=
  ⟨fun _ _ _ h => exec_cfg h, fun _ _ h => step_cfg h⟩

/-! ## The three paths -/

theorem choosePath_oversize (s : State) (h : 4 * s.cfg.cap < s.len) : s.choosePath = s.raiseOversize := by
  rw [State.choosePath, if_pos h]

theorem choosePath_single (s : State) (h : s.len ≤ s.cfg.cap) : s.choosePath = s.startSingle := by
  rw [State.choosePath, if_neg (by omega), if_pos h]

theorem choosePath_fragmented (s : State) (h1 : s.cfg.cap < s.len) (h2 : s.len ≤ 4 * s.cfg.cap) :
    s.choosePath = s.startFragmented := by
  rw [State.choosePath, if_neg (by omega), if_neg (by omega)]

/-- Every length takes one of the three paths (R104). -/
theorem path_cases (s : State) :
    4 * s.cfg.cap < s.len ∨ s.len ≤ s.cfg.cap ∨ (s.cfg.cap < s.len ∧ s.len ≤ 4 * s.cfg.cap) := by
  omega

/-! ## What earlier calls left in the registers -/

/-- `s` with the call registers (R26 to R31, and the model's `written`) that `u` holds. -/
def withCallRegisters (s u : State) : State :=
  { s with
    inBuf := u.inBuf, len := u.len, tag := u.tag, frag := u.frag, nfr := u.nfr, k := u.k
    status := u.status, written := u.written }

/-- A request transfer overwrites every call register, so it does not matter what they held (R38, R39). -/
theorem accept_withCallRegisters (s u : State) (r : Request) :
    ((withCallRegisters s u).latchRequest r).choosePath = (s.latchRequest r).choosePath := by
  -- The path is chosen by the request's length and `C` alone, and each path writes the rest.
  rcases path_cases (s.latchRequest r) with h | h | ⟨h1, h2⟩
  · rw [choosePath_oversize _ h, choosePath_oversize ((withCallRegisters s u).latchRequest r) h]; rfl
  · rw [choosePath_single _ h, choosePath_single ((withCallRegisters s u).latchRequest r) h]; rfl
  · rw [choosePath_fragmented _ h1 h2,
      choosePath_fragmented ((withCallRegisters s u).latchRequest r) h1 h2]; rfl

/-- Settles O21: the other state is the first with other call registers, and a request transfer overwrites
them all. -/
theorem acceptForgetsEarlierCalls : Obligations.AcceptForgetsEarlierCalls := by
  intro s s' r hs hp hp' hcfg hpend hfrm hrsp hrst henv hobs hdraw hr hw
  have hs' : s'.Sound := sound_of_idle (hcfg ▸ hs.1) hp'
  have hregs : withCallRegisters s s' = s' := by
    rw [withCallRegisters, hp, ← hp', ← hcfg, ← hpend, ← hfrm, ← hrsp, ← hrst, ← henv, ← hobs, ← hdraw]
  have h' := acceptRequest_taken hs' hp' (hpend ▸ hr) (hcfg ▸ hw)
  rw [← hregs, accept_withCallRegisters, hregs] at h'
  exact ⟨_, acceptRequest_taken hs hp hr hw, h'⟩

/-! ## The counter's high bits and width -/

@[simp] theorem withSeqBits_outputs (s : State) (b : Nat) : (s.withSeqBits b).outputs = s.outputs := rfl

theorem withSeqBits_choosePath (s : State) (b : Nat) :
    (s.withSeqBits b).choosePath = s.choosePath.withSeqBits b := by
  rcases path_cases s with h | h | ⟨h1, h2⟩
  · rw [choosePath_oversize _ h, choosePath_oversize (s.withSeqBits b) h]; rfl
  · rw [choosePath_single _ h, choosePath_single (s.withSeqBits b) h]; rfl
  · rw [choosePath_fragmented _ h1 h2, choosePath_fragmented (s.withSeqBits b) h1 h2]; rfl

theorem withSeqBits_sound {s : State} {b : Nat} (hb : 5 ≤ b) (hs : s.Sound) : (s.withSeqBits b).Sound := by
  obtain ⟨hc, hf⟩ := hs
  simp only [Config.legal, Bool.and_eq_true, decide_eq_true_eq] at hc
  obtain ⟨⟨⟨hcap1, hcap2⟩, hlen⟩, -⟩ := hc
  exact ⟨by simp [Config.legal, hcap1, hcap2, hlen, hb], hf⟩

/-- Two requests with one input and counters equal mod 32 are latched alike: of the counter only the tag is
kept (R120), and of the caller's list only what follows the request. -/
theorem withSeqBits_latchRequest {r r' : Request} (s : State) (rest : List Request) (b : Nat)
    (hin : r.input = r'.input) (hseq : r.seq % 32 = r'.seq % 32) :
    State.latchRequest { s.withSeqBits b with pending := r' :: rest } r' =
      (State.latchRequest { s with pending := r :: rest } r).withSeqBits b := by
  simp [State.latchRequest, State.withSeqBits, hin, seqTag_congr hseq]

theorem exec_fragment_withSeqBits {s : State} {r r' : Request} {rest : List Request} {b : Nat}
    (hin : r.input = r'.input) (hseq : r.seq % 32 = r'.seq % 32) (hb : 5 ≤ b)
    (hw : r.wf s.cfg = true) (hw' : r'.wf (s.withSeqBits b).cfg = true) (hs : s.Sound)
    (hp : s.phase = phaseIdle) :
    ∃ t, exec (.fragment r) { s with pending := r :: rest } = .next t ∧
      exec (.fragment r') { s.withSeqBits b with pending := r' :: rest } = .next (t.withSeqBits b) := by
  refine ⟨_, acceptRequest_taken (sound_of_idle hs.1 hp) hp rfl hw, ?_⟩
  rw [← withSeqBits_choosePath, ← withSeqBits_latchRequest s rest b hin hseq]
  exact acceptRequest_taken (sound_of_idle (withSeqBits_sound hb hs).1 hp) hp rfl hw'

/-- In a sound state a frame kind is on offer and accepted, or one of the reasons to hold it back is there. -/
theorem frame_taken_or_held {s : State} (hs : s.Sound) (fl : Byte) :
    (∃ f, s.phase = phaseEmit ∧ s.frmReady = true ∧ s.frameOnOffer = some f ∧ f.flags = fl) ∨
    (s.phase ≠ phaseEmit ∨ s.frmReady = false ∨ ∃ f, s.frameOnOffer = some f ∧ f.flags ≠ fl) := by
  by_cases hp : s.phase = phaseEmit
  · obtain ⟨-, -, f, hf⟩ := emit_of_sound hs hp
    by_cases hfl : f.flags = fl
    · cases hr : s.frmReady with
      | true => exact .inl ⟨f, hp, rfl, hf, hfl⟩
      | false => exact .inr (.inr (.inl rfl))
    · exact .inr (.inr (.inr ⟨f, hf, hfl⟩))
  · exact .inr (.inl hp)

theorem response_taken_or_held (s : State) (w : BitVec 4) :
    (s.phase = phaseResp ∧ s.rspReady = true ∧ responseWord s.responseOnOffer = w) ∨
    (s.phase ≠ phaseResp ∨ s.rspReady = false ∨ responseWord s.responseOnOffer ≠ w) := by
  rw [← Bool.not_eq_true]
  tauto

theorem takeFrame_withSeqBits {fl : Byte} {s t : State} {b : Nat} (hb : 5 ≤ b)
    (h : takeFrame fl s = .next t) : takeFrame fl (s.withSeqBits b) = .next (t.withSeqBits b) := by
  obtain ⟨hs, -⟩ := takeFrame_next h
  have hsb := withSeqBits_sound hb hs
  obtain ⟨f, hp, hr, hf, hfl⟩ | hheld := frame_taken_or_held hs fl
  · rw [takeFrame_taken hs hp hr hf hfl] at h
    cases h
    exact takeFrame_taken hsb hp hr hf hfl
  · rw [takeFrame_held hs hheld] at h
    cases h
    exact takeFrame_held hsb hheld

theorem takeResponse_withSeqBits {w : BitVec 4} {s t : State} {b : Nat} (hb : 5 ≤ b)
    (h : takeResponse w s = .next t) : takeResponse w (s.withSeqBits b) = .next (t.withSeqBits b) := by
  obtain ⟨hs, -⟩ := takeResponse_next h
  have hsb := withSeqBits_sound hb hs
  obtain ⟨hp, hr, hw⟩ | hheld := response_taken_or_held s w
  · rw [takeResponse_taken hs hp hr hw] at h
    cases h
    exact takeResponse_taken hsb hp hr hw
  · rw [takeResponse_held hs hheld] at h
    cases h
    exact takeResponse_held hsb hheld

theorem eq_fragment_of_encode_req {i : Instr} {r : Request} (h : encode i = .req r) : i = .fragment r := by
  cases i <;> cases h
  rfl

theorem exec_withSeqBits {i : Instr} {s t : State} {b : Nat} (hb : 5 ≤ b) (hi : ∀ r, i ≠ .fragment r)
    (h : exec i s = .next t) : exec i (s.withSeqBits b) = .next (t.withSeqBits b) := by
  cases he : encode i with
  | req r => exact absurd (eq_fragment_of_encode_req he) (hi r)
  | frm fl =>
    rw [exec_of_encode_frm he] at h ⊢
    exact takeFrame_withSeqBits hb h
  | rsp w =>
    rw [exec_of_encode_rsp he] at h ⊢
    exact takeResponse_withSeqBits hb h

/-- Settles O20: latching keeps of the counter its tag alone, and no operation or output asks for
`SEQ_BITS` beyond its being legal. -/
theorem highCounterBitsReachNothing : Obligations.HighCounterBitsReachNothing :=
  ⟨fun _ _ _ _ _ hin hseq hb hw hw' hs hp => exec_fragment_withSeqBits hin hseq hb hw hw' hs hp,
    fun _ _ _ _ hb hi h => exec_withSeqBits hb hi h, withSeqBits_outputs⟩

end Sys2Proof.Proofs
end

section
/-! SUPPORT. Proofs for the state of the block (10_state.md): what a step can do to the registers and to the
other agents' lines, what the channels show, and the invariant that every step keeps. -/

namespace Sys2Proof.Proofs

open Sys2Proof.Machine Sys2Proof.Laws

/-! ## What the channels show -/

@[simp] theorem outputs_reqReady (s : State) : s.outputs.reqReady = s.reqReady := rfl
@[simp] theorem outputs_frmValid (s : State) : s.outputs.frmValid = s.frmValid := rfl
@[simp] theorem outputs_rspValid (s : State) : s.outputs.rspValid = s.rspValid := rfl

theorem reqReady_iff (s : State) : s.reqReady = true ↔ s.phase = phaseIdle := by simp [State.reqReady]

theorem frmValid_iff (s : State) : s.frmValid = true ↔ s.phase = phaseEmit ∧ s.k < s.nfr := by
  simp [State.frmValid]

theorem rspValid_iff (s : State) : s.rspValid = true ↔ s.phase = phaseResp := by simp [State.rspValid]

theorem outputs_frm {s : State} {f : Frame} (hv : s.frmValid = true) (hf : s.frameOnOffer = some f) :
    s.outputs.frm = f := by
  simp [State.outputs, hv, hf]

theorem outputs_rsp {s : State} (hv : s.rspValid = true) : s.outputs.rsp = s.responseOnOffer := by
  simp [State.outputs, hv]

theorem idle_ne_emit : phaseIdle ≠ phaseEmit := by decide
theorem idle_ne_resp : phaseIdle ≠ phaseResp := by decide
theorem emit_ne_resp : phaseEmit ≠ phaseResp := by decide

/-- What an idle block shows: it is ready for a request and offers nothing (R25). -/
theorem outputs_of_idle {s : State} (h : s.phase = phaseIdle) :
    s.outputs.reqReady = true ∧ s.outputs.frmValid = false ∧ s.outputs.rspValid = false := by
  simp [State.reqReady, State.frmValid, State.rspValid, h, idle_ne_emit, idle_ne_resp]

/-- A sound block in EMIT has its frame on offer. -/
theorem frmValid_of_emit {s : State} (hs : s.Sound) (hp : s.phase = phaseEmit) : s.frmValid = true := by
  obtain ⟨-, hb, -⟩ := emit_of_sound hs hp
  exact (frmValid_iff s).2 ⟨hp, BitVec.lt_def.2 ((frameBound_iff s).1 hb).1⟩

/-- Settles O36: each of the three lines asks for another phase. -/
theorem atMostOneChannelIsReady : Obligations.AtMostOneChannelIsReady := by
  have hne : ∀ {a b : Bool}, ¬ (a = true ∧ b = true) → (a && b) = false := by decide
  intro s
  refine ⟨hne ?_, hne ?_, hne ?_⟩ <;>
    simp only [outputs_reqReady, outputs_frmValid, outputs_rspValid, reqReady_iff, frmValid_iff, rspValid_iff]
  · rintro ⟨hi, he, -⟩; exact idle_ne_emit (hi.symm.trans he)
  · rintro ⟨hi, hr⟩; exact idle_ne_resp (hi.symm.trans hr)
  · rintro ⟨⟨he, -⟩, hr⟩; exact emit_ne_resp (he.symm.trans hr)

/-! ## What a step can do -/

/-- `s` with what the other agents and the run around the block hold in `u`: the lines, the caller's list, the
schedule and the draw counter. The block's registers and the observation are those of `s`. -/
def withAgents (s u : State) : State :=
  { s with
    pending := u.pending, frmReady := u.frmReady, rspReady := u.rspReady, rst := u.rst, env := u.env
    draw := u.draw }

theorem turnState_eq_withAgents (s : State) : turnState s = withAgents s (turnState s) := rfl

theorem applyMove_eq_withAgents (s : State) (m : Move) :
    s.tick.popMove.applyMove m = withAgents s (s.tick.popMove.applyMove m) := by
  cases m <;> rfl

/-- A move leaves the requests on offer where they are; a new one goes behind them. -/
theorem applyMove_pending (s : State) (m : Move) : ∃ more, (s.applyMove m).pending = s.pending ++ more := by
  cases m with
  | present r => exact ⟨[r], rfl⟩
  | sinkReady b => exact ⟨[], (List.append_nil _).symm⟩
  | callerReady b => exact ⟨[], (List.append_nil _).symm⟩
  | assertReset => exact ⟨[], (List.append_nil _).symm⟩
  | run => exact ⟨[], (List.append_nil _).symm⟩

theorem step_sound {s t : State} (h : step s = .next t) : s.Sound := (step_next h).1

/-- Everything a step without reset can do: leave the block alone (a move of another agent, or a wait), or
one of the transfers of R105 to R108. -/
theorem step_cases {s t : State} (hr : s.rst = false) (h : step s = .next t) :
    (∃ u more, u.pending = s.pending ++ more ∧ t = withAgents s u) ∨
    (∃ r, s.phase = phaseIdle ∧ s.pending.head? = some r ∧ r.wf s.cfg = true ∧
      t = ((turnState s).latchRequest r).choosePath) ∨
    (∃ f, s.phase = phaseEmit ∧ s.frmReady = true ∧ s.frameOnOffer = some f ∧
      t = (turnState s).afterFrame f) ∨
    (s.phase = phaseResp ∧ s.rspReady = true ∧ t = (turnState s).afterResponse) := by
  obtain ⟨-, ⟨hr', -⟩ | ⟨m, rest, -, -, rfl⟩ | ⟨-, -, hrun⟩⟩ := step_next h
  · simp [hr] at hr'
  · obtain ⟨more, hmore⟩ := applyMove_pending s.tick.popMove m
    exact .inl ⟨_, more, hmore, applyMove_eq_withAgents s m⟩
  · obtain ⟨-, rfl⟩ | hreq | hfrm | hrsp := runBlock_next hrun
    · exact .inl ⟨turnState s, [], (List.append_nil _).symm, turnState_eq_withAgents s⟩
    · exact .inr (.inl hreq)
    · exact .inr (.inr (.inl hfrm))
    · exact .inr (.inr (.inr hrsp))

theorem step_of_asserted_reset {s t : State} (hr : s.rst = true) (h : step s = .next t) :
    t = s.tick.resetBlock := by
  rw [step_of_reset (step_sound h) hr] at h
  cases h; rfl

theorem step_rst_cases {s t : State} (h : step s = .next t) :
    s.rst = false ∨ (s.rst = true ∧ t = s.tick.resetBlock) := by
  cases hr : s.rst with
  | false => exact .inl rfl
  | true => exact .inr ⟨rfl, step_of_asserted_reset hr h⟩

/-! ## What a request transfer leaves -/

@[simp] theorem choosePath_inBuf (s : State) : s.choosePath.inBuf = s.inBuf := by
  obtain ⟨-, h, -⟩ := choosePath_kept s
  exact h

@[simp] theorem choosePath_pending (s : State) : s.choosePath.pending = s.pending := by
  obtain ⟨-, -, -, -, -, -, h, -⟩ := choosePath_kept s
  exact h

@[simp] theorem choosePath_obs (s : State) : s.choosePath.obs = s.obs := by
  obtain ⟨-, -, -, -, -, -, -, -, -, -, -, h, -⟩ := choosePath_kept s
  exact h

/-- A path is EMIT or RESP: after a request transfer the block is busy. -/
theorem choosePath_phase_cases (s : State) :
    s.choosePath.phase = phaseEmit ∨ s.choosePath.phase = phaseResp := by
  rcases path_cases s with h | h | ⟨h1, h2⟩
  · rw [choosePath_oversize s h]; exact .inr rfl
  · rw [choosePath_single s h]; exact .inl rfl
  · rw [choosePath_fragmented s h1 h2]; exact .inl rfl

theorem choosePath_phase_ne_idle (s : State) : s.choosePath.phase ≠ phaseIdle := by
  rcases choosePath_phase_cases s with h | h <;> rw [h]
  · exact idle_ne_emit.symm
  · exact idle_ne_resp.symm

/-! ## The invariant -/

/-- In IDLE the invariant asks only for registers in range. -/
theorem inv_of_idle {s : State} (hc : s.cfg.legal = true) (hp : s.phase = phaseIdle) (hb : s.BufferWf)
    (ht : s.tag.extractLsb' 0 3 = 0#3) (hn : s.nfr.toNat ≤ 4) (hk : s.k.toNat ≤ s.nfr.toNat) : s.Inv where
  legal := hc
  phase := by rw [hp]; decide
  buffer := hb
  tagLow := ht
  nfrBound := hn
  kBound := hk
  call := fun h => absurd hp h
  emit := fun h => absurd (hp.symm.trans h) idle_ne_emit
  resp := fun h => absurd (hp.symm.trans h) idle_ne_resp

/-- In a call the invariant is the latched call, the place of `k`, and the frames transferred so far. -/
theorem inv_of_latched {s : State} (hc : s.cfg.legal = true) (hl : s.CallLatched)
    (hk : (s.phase = phaseEmit ∧ s.k.toNat < s.nfr.toNat) ∨ (s.phase = phaseResp ∧ s.k = s.nfr))
    (he : s.HasEmitted s.k.toNat) : s.Inv := by
  have ⟨_, hb, ht, _⟩ := hl
  have ⟨hn, _⟩ := bound_of_latched hc hl
  refine ⟨hc, ?phase, hb, ht, hn, ?kBound, fun _ => hl, fun hp => ?emit, fun hp => ?resp⟩ <;>
    rcases hk with ⟨hp', hk⟩ | ⟨hp', hk⟩
  case phase.inl => rw [hp']; decide
  case phase.inr => rw [hp']; decide
  case kBound.inl => exact hk.le
  case kBound.inr => rw [hk]
  case emit.inl => exact ⟨hk, he⟩
  case emit.inr => exact absurd (hp.symm.trans hp') emit_ne_resp
  case resp.inl => exact absurd (hp'.symm.trans hp) emit_ne_resp
  case resp.inr => exact ⟨hk, hk ▸ he⟩

theorem hasEmitted_zero (s : State) : s.HasEmitted 0 := ⟨s.obs, by simp⟩

/-- The invariant speaks of the block and the observation alone. -/
theorem inv_withAgents {s : State} (u : State) (h : s.Inv) : (withAgents s u).Inv where
  legal := h.legal
  phase := h.phase
  buffer := h.buffer
  tagLow := h.tagLow
  nfrBound := h.nfrBound
  kBound := h.kBound
  call := h.call
  emit := h.emit
  resp := h.resp

theorem inv_turnState {s : State} (h : s.Inv) : (turnState s).Inv :=
  turnState_eq_withAgents s ▸ inv_withAgents (turnState s) h

theorem inv_resetBlock {s : State} (hc : s.cfg.legal = true) : s.resetBlock.Inv :=
  inv_of_idle hc rfl ⟨rfl, rfl, Nat.two_pow_pos _⟩ rfl (by simp) (by simp)

/-- ACCEPT begins a call in which nothing is transferred yet: the first frame is due, or, for an oversize
request, the response. -/
theorem inv_accept {s : State} {r : Request} (hc : s.cfg.legal = true) (hw : r.wf s.cfg = true) :
    (s.latchRequest r).choosePath.Inv := by
  obtain ⟨hl, hk, hp⟩ := latched_of_accept hc hw
  obtain ⟨hn, -⟩ := choosePath_path (s.latchRequest r) (legal_cap hc).1
  rw [latchRequest_len, latchRequest_cfg] at hn
  refine inv_of_latched (by simpa using hc) hl ?_ (hk ▸ hasEmitted_zero _)
  rcases Nat.lt_or_ge (4 * s.cfg.cap) r.input.length with hL | hL
  · rw [nframes_oversize hL] at hn
    rw [if_pos hL] at hp
    exact .inr ⟨hp, BitVec.eq_of_toNat_eq (by rw [hk, hn]; rfl)⟩
  · have hpos := (lt_nframes_iff (legal_cap hc).1 hL 0).2 (.inl rfl)
    rw [if_neg (Nat.not_lt.2 hL)] at hp
    exact .inl ⟨hp, by rw [hk, hn]; exact hpos⟩

/-- Within the bound of R111 the count of transferred frames does not wrap. -/
theorem k_succ_toNat {s : State} (hlt : s.k.toNat < s.nfr.toNat) : (s.k + 1#3).toNat = s.k.toNat + 1 := by
  have := s.nfr.isLt
  simp only [BitVec.toNat_add, BitVec.toNat_ofNat]
  omega

/-- The next frame on offer is the next frame of the functional definition. -/
theorem hasEmitted_afterFrame {s : State} {f : Frame} (hc : s.cfg.legal = true) (hl : s.CallLatched)
    (hlt : s.k.toNat < s.nfr.toNat) (hf : s.frameOnOffer = some f) (he : s.HasEmitted s.k.toNat) :
    (s.afterFrame f).HasEmitted (s.k.toNat + 1) := by
  have hget : s.latchedFrames[s.k.toNat]? = some f := by
    rw [latchedFrames_get hc hl hlt, ← frameOnOffer_of_latched hc hl hlt, hf]
  have hframes : (s.afterFrame f).latchedFrames = s.latchedFrames := rfl
  obtain ⟨past, hpast⟩ := he
  refine ⟨past, ?_⟩
  rw [hframes, List.take_add_one, hget, afterFrame_obs, hpast]
  simp

/-- EMIT and EMIT-last: one more frame of the call is out, and the response is due after the last. -/
theorem inv_afterFrame {s : State} {f : Frame} (h : s.Inv) (hp : s.phase = phaseEmit)
    (hf : s.frameOnOffer = some f) : (s.afterFrame f).Inv := by
  have hl : s.CallLatched := h.call (by rw [hp]; exact idle_ne_emit.symm)
  obtain ⟨hlt, he⟩ := h.emit hp
  have hk := k_succ_toNat hlt
  refine inv_of_latched h.legal hl ?_ ?_
  · rw [afterFrame_phase, afterFrame_k, afterFrame_nfr]
    split_ifs with hlast
    · exact .inr ⟨rfl, hlast⟩
    · have : (s.k + 1#3).toNat ≠ s.nfr.toNat := fun h => hlast (BitVec.eq_of_toNat_eq h)
      exact .inl ⟨rfl, by omega⟩
  · rw [afterFrame_k, hk]
    exact hasEmitted_afterFrame h.legal hl hlt hf he

/-- RESPOND ends the call; the registers keep values in range. -/
theorem inv_afterResponse {s : State} (h : s.Inv) : s.afterResponse.Inv :=
  inv_of_idle h.legal rfl h.buffer h.tagLow h.nfrBound h.kBound

/-- Settles O45: reset makes the invariant afresh, a step outside the block does not touch it, and each of the
transfers keeps it. -/
theorem stepKeepsTheInvariant : Obligations.StepKeepsTheInvariant := by
  intro s t h hstep
  obtain hr | ⟨-, rfl⟩ := step_rst_cases hstep
  · obtain ⟨u, -, -, rfl⟩ | ⟨r, -, -, hw, rfl⟩ | ⟨f, hp, -, hf, rfl⟩ | ⟨-, -, rfl⟩ := step_cases hr hstep
    · exact inv_withAgents u h
    · exact inv_accept h.legal hw
    · exact inv_afterFrame (inv_turnState h) hp hf
    · exact inv_afterResponse (inv_turnState h)
  · exact inv_resetBlock h.legal

/-! ## Transfers that do not take place, and the frame of the responses -/

/-- Settles O24: a frame kind is `takeFrame` of its byte, which holds back in each of the three cases. -/
theorem frameNotTakenChangesNothing : Obligations.FrameNotTakenChangesNothing := by
  intro i b s he hs hheld
  rw [exec_of_encode_frm he]
  exact takeFrame_held hs hheld

/-- Settles O27: a response is `takeResponse` of its word, which holds back in each of the three cases. -/
theorem responseNotTakenChangesNothing : Obligations.ResponseNotTakenChangesNothing := by
  intro i w s he hs hheld
  rw [exec_of_encode_rsp he]
  exact takeResponse_held hs hheld

/-- Settles O28: a response that is taken is the one on offer, and RESPOND writes `phase` and the observation. -/
theorem responsesFrame : Obligations.ResponsesFrame := by
  intro i w s t he h
  rw [exec_of_encode_rsp he] at h
  obtain ⟨-, ⟨-, -, hw, rfl⟩ | rfl⟩ := takeResponse_next h
  · exact ⟨fun _ => rfl, .inr ⟨s.responseOnOffer, hw, rfl⟩⟩
  · exact ⟨fun _ => rfl, .inl rfl⟩

/-! ## Reset, the other agents and the block's turn -/

/-- Settles O30: the reset step is `resetBlock`, which is idle and keeps the parameters, the observation and the
requests on offer. -/
theorem resetTakesPriority : Obligations.ResetTakesPriority := by
  intro s hs hr
  obtain ⟨hreq, hfrm, hrsp⟩ := outputs_of_idle (resetBlock_phase s.tick)
  exact ⟨_, step_of_reset hs hr, rfl, hreq, hfrm, hrsp, rfl, rfl, rfl⟩

/-- Settles O32: the reset state is idle. -/
theorem resetLeavesTheBlockReady : Obligations.ResetLeavesTheBlockReady := by
  intro c
  obtain ⟨hreq, hfrm, hrsp⟩ := outputs_of_idle (s := State.resetWith c) rfl
  exact ⟨rfl, rfl, hreq, hfrm, hrsp, rfl⟩

/-- A scheduled move is applied to the state with the draw counted and the move taken off the schedule. -/
theorem step_of_scheduled {s : State} (hs : s.Sound) (hr : s.rst = false) {m : Move} {rest : List Move}
    (he : s.env = m :: rest) (hm : m ≠ .run) :
    step s = .next (State.applyMove { s with draw := s.draw + 1, env := rest } m) := by
  rw [step_of_move hs hr he hm, State.popMove, tick_env, he]
  rfl

/-- Settles O33: each move of another agent writes its own line. -/
theorem otherAgentsMoveOnlyTheirOwnLines : Obligations.OtherAgentsMoveOnlyTheirOwnLines := by
  intro s rest hs hr
  exact ⟨fun r he => step_of_scheduled hs hr he (by simp), fun b he => step_of_scheduled hs hr he (by simp),
    fun b he => step_of_scheduled hs hr he (by simp), fun he => step_of_scheduled hs hr he (by simp)⟩

theorem runBlock_of_fetchWord {s : State} {w : ChannelWord} {i : Instr} (hw : s.fetchWord = some w)
    (hd : decode w = .ok i) : runBlock s = exec i s := by
  simp [runBlock, State.fetch, hw, hd]

/-- Settles O29: neither the draw nor the schedule reaches the channels, so the block finds the same word. -/
theorem stepRunsTheDecodedOperation : Obligations.StepRunsTheDecodedOperation := by
  intro s w i hs hr he hw hd
  rw [step_of_block hs hr he]
  exact runBlock_of_fetchWord (s := turnState s) hw hd

/-! ## Offers, the sequencing position and the latched input over a step -/

/-- An offered frame goes to a ready sink or stays on offer. -/
theorem frame_taken_or_stays {s t : State} {f : Frame} (hr : s.rst = false) (h : step s = .next t)
    (hv : s.frmValid = true) (hf : s.frameOnOffer = some f) :
    (s.frmReady = true ∧ t.obs = s.obs ++ [.frm f]) ∨
    (t.obs = s.obs ∧ t.frmValid = true ∧ t.outputs.frm = f) := by
  obtain ⟨hp, -⟩ := (frmValid_iff s).1 hv
  obtain ⟨u, -, -, rfl⟩ | ⟨r, hi, -⟩ | ⟨f', -, hready, hf', rfl⟩ | ⟨hresp, -⟩ := step_cases hr h
  · exact .inr ⟨rfl, hv, outputs_frm (s := withAgents s u) hv hf⟩
  · exact absurd (hi.symm.trans hp) idle_ne_emit
  · cases hf.symm.trans hf'
    exact .inl ⟨hready, rfl⟩
  · exact absurd (hp.symm.trans hresp) emit_ne_resp

/-- An offered response goes to a ready caller or stays on offer. -/
theorem response_taken_or_stays {s t : State} (hr : s.rst = false) (h : step s = .next t)
    (hv : s.rspValid = true) :
    (s.rspReady = true ∧ t.obs = s.obs ++ [.rsp s.responseOnOffer]) ∨
    (t.obs = s.obs ∧ t.rspValid = true ∧ t.outputs.rsp = s.responseOnOffer) := by
  have hp := (rspValid_iff s).1 hv
  obtain ⟨u, -, -, rfl⟩ | ⟨r, hi, -⟩ | ⟨f, hemit, -⟩ | ⟨-, hready, rfl⟩ := step_cases hr h
  · exact .inr ⟨rfl, hv, outputs_rsp (s := withAgents s u) hv⟩
  · exact absurd (hi.symm.trans hp) idle_ne_resp
  · exact absurd (hemit.symm.trans hp) emit_ne_resp
  · exact .inl ⟨hready, rfl⟩

/-- The request on offer is taken by an idle block, which is then busy, or stays at the head. -/
theorem request_taken_or_stays {s t : State} {r : Request} {rest : List Request} (hr : s.rst = false)
    (h : step s = .next t) (hpend : s.pending = r :: rest) :
    (s.reqReady = true ∧ t.reqReady = false ∧ t.pending = rest) ∨
    (∃ more, t.pending = r :: rest ++ more) := by
  obtain ⟨u, more, hu, rfl⟩ | ⟨r', hi, -, -, rfl⟩ | ⟨f, -, -, -, rfl⟩ | ⟨-, -, rfl⟩ := step_cases hr h
  · exact .inr ⟨more, hpend ▸ hu⟩
  · refine .inl ⟨(reqReady_iff s).2 hi, ?_, ?_⟩
    · exact decide_eq_false (choosePath_phase_ne_idle _)
    · rw [choosePath_pending, latchRequest_pending]
      exact congrArg List.tail hpend
  · exact .inr ⟨[], by rw [List.append_nil]; exact hpend⟩
  · exact .inr ⟨[], by rw [List.append_nil]; exact hpend⟩

/-- Only an item on offer is added to the transfers. -/
theorem offered_of_obs_ne {s t : State} (hr : s.rst = false) (h : step s = .next t) (hobs : t.obs ≠ s.obs) :
    s.frmValid = true ∨ s.rspValid = true := by
  obtain ⟨u, -, -, rfl⟩ | ⟨r, -, -, -, rfl⟩ | ⟨f, hp, -⟩ | ⟨hp, -⟩ := step_cases hr h
  · exact absurd rfl hobs
  · exact absurd (choosePath_obs _) hobs
  · exact .inl (frmValid_of_emit (step_sound h) hp)
  · exact .inr ((rspValid_iff s).2 hp)

/-- Settles O34, channel by channel. -/
theorem offeredItemsStayUntilTransferred : Obligations.OfferedItemsStayUntilTransferred :=
  fun _ _ hr h => ⟨fun _ hv hf => frame_taken_or_stays hr h hv hf, response_taken_or_stays hr h,
    fun _ _ hpend => request_taken_or_stays hr h hpend, offered_of_obs_ne hr h⟩

/-- Settles O35: a step outside the block moves neither register, and `k < nfr` holds at every frame transfer
(R111), so `k + 1` neither wraps nor passes `nfr`. -/
theorem phaseMovesOnlyByTheFourTransitions : Obligations.PhaseMovesOnlyByTheFourTransitions := by
  intro s t hr h
  have hs := step_sound h
  obtain ⟨u, -, -, rfl⟩ | ⟨r, hi, -, hw, rfl⟩ | ⟨f, hp, -, -, rfl⟩ | ⟨hp, -, rfl⟩ := step_cases hr h
  · exact .inl ⟨rfl, rfl⟩
  · obtain ⟨-, hk, -⟩ := latched_of_accept (s := turnState s) hs.1 hw
    exact .inr (.inl ⟨hi, choosePath_phase_cases _, hk⟩)
  · obtain ⟨-, hb, -⟩ := emit_of_sound hs hp
    obtain ⟨hlt, -⟩ := (frameBound_iff s).1 hb
    have hk : ((turnState s).afterFrame f).k.toNat = s.k.toNat + 1 := k_succ_toNat hlt
    by_cases hlast : s.k + 1#3 = s.nfr
    · exact .inr (.inr (.inr (.inl ⟨hp, if_pos hlast, hk, hlast⟩)))
    · have hne : (s.k + 1#3).toNat ≠ s.nfr.toNat := fun e => hlast (BitVec.eq_of_toNat_eq e)
      rw [k_succ_toNat hlt] at hne
      exact .inr (.inr (.inl ⟨hp, if_neg hlast, hk, by omega⟩))
  · exact .inr (.inr (.inr (.inr ⟨hp, rfl, rfl⟩)))

/-- Settles O38: of all that a step can do, only ACCEPT and reset write the snapshot, and ACCEPT leaves IDLE. -/
theorem latchedInputIsASnapshot : Obligations.LatchedInputIsASnapshot := by
  intro s t h
  obtain hr | ⟨hr, -⟩ := step_rst_cases h
  · obtain ⟨u, -, -, rfl⟩ | ⟨r, hi, -, -, rfl⟩ | ⟨f, -, -, -, rfl⟩ | ⟨-, -, rfl⟩ := step_cases hr h
    · exact .inr (.inr ⟨fun _ => rfl, rfl, rfl⟩)
    · exact .inr (.inl ⟨hi, choosePath_phase_ne_idle _⟩)
    · exact .inr (.inr ⟨fun _ => rfl, rfl, rfl⟩)
    · exact .inr (.inr ⟨fun _ => rfl, rfl, rfl⟩)
  · exact .inl hr

/-- Settles O39: a step keeps the input space, empties it (reset) or lays out a request's bytes in it. -/
theorem inputSpaceStaysCanonical : Obligations.InputSpaceStaysCanonical := by
  intro s t hwf h
  obtain hr | ⟨-, rfl⟩ := step_rst_cases h
  · obtain ⟨u, -, -, rfl⟩ | ⟨r, -, -, -, rfl⟩ | ⟨f, -, -, -, rfl⟩ | ⟨-, -, rfl⟩ := step_cases hr h
    · exact hwf
    · rw [choosePath_inBuf, latchRequest_inBuf]
      exact wf_ofBytes r.input
    · exact hwf
    · exact hwf
  · exact wf_reset s.cfg

/-! ## The states that fault -/

/-- A state with a model fault stops with it, in the step and in every operation. -/
theorem stops_of_modelFault {s : State} {f : Fault} (i : Instr) (hc : s.cfg.legal = true)
    (hf : s.modelFault = some f) : step s = .fault f ∧ exec i s = .fault f := by
  obtain ⟨go, hgo⟩ := exec_guarded i s
  exact ⟨guarded_fault hc hf _, by rw [hgo, guarded_fault hc hf]⟩

theorem modelFault_phase {s : State} (hp : s.phase = phaseNone) : s.modelFault = some .invariantPhase := by
  simp [State.modelFault, hp]

theorem modelFault_unwritten {s : State} (hp : s.phase = phaseEmit ∨ s.phase = phaseResp)
    (hw : s.written = false) : s.modelFault = some .invariantUnwritten := by
  rcases hp with hp | hp <;> simp [State.modelFault, hp, hw, phaseNone, phaseIdle, phaseEmit, phaseResp]

theorem modelFault_frameBound {s : State} (hp : s.phase = phaseEmit) (hw : s.written = true)
    (hb : s.frameBound = false) : s.modelFault = some .invariantFrameBound := by
  simp [State.modelFault, hp, hw, hb, phaseNone, phaseIdle, phaseEmit, phaseResp]

/-- Settles O41: each of the three states has its model fault. -/
theorem unreachableStatesFault : Obligations.UnreachableStatesFault := by
  intro s i hc
  refine ⟨fun hp => ?_, fun hp hw => ?_, fun hp hw hb => ?_⟩
  · exact stops_of_modelFault i hc (modelFault_phase hp)
  · exact stops_of_modelFault i hc (modelFault_unwritten hp hw)
  · rw [← frameBound_iff, Bool.not_eq_true] at hb
    exact stops_of_modelFault i hc (modelFault_frameBound hp hw hb)

end Sys2Proof.Proofs
end

section
/-! SUPPORT. Proofs for the memory of a call (20_memory.md): a latched buffer reads back, the transfers of a call
stand in the order of the functional definition, and one call's transfers come before the next call's. -/

namespace Sys2Proof.Proofs

open Sys2Proof.Machine Sys2Proof.Laws

/-! ## The latched buffer -/

/-- Settles O10: the reads, the canonical form and the bytes of a snapshot. -/
theorem latchedBufferReadsTheInput : Obligations.LatchedBufferReadsTheInput :=
  fun bs => ⟨read_ofBytes bs, wf_ofBytes bs, bytes_ofBytes bs⟩

/-! ## The transfers of a call -/

@[simp] theorem choosePath_tag (s : State) : s.choosePath.tag = s.tag := by
  obtain ⟨-, -, -, h, -⟩ := choosePath_kept s
  exact h

@[simp] theorem choosePath_k (s : State) : s.choosePath.k = s.k := by
  obtain ⟨-, -, -, -, h, -⟩ := choosePath_kept s
  exact h

theorem emit_ne_idle_of {s : State} (hp : s.phase = phaseEmit) : s.phase ≠ phaseIdle :=
  hp ▸ idle_ne_emit.symm

theorem resp_ne_idle_of {s : State} (hp : s.phase = phaseResp) : s.phase ≠ phaseIdle :=
  hp ▸ idle_ne_resp.symm

/-- A request transfer begins a call at the observation of that moment, with no frame out yet. -/
theorem callFrom_accept (s : State) (r : Request) : (s.latchRequest r).choosePath.CallFrom s.obs :=
  ⟨choosePath_phase_ne_idle _, by simp⟩

@[simp] theorem afterFrame_latchedFrames (s : State) (f : Frame) :
    (s.afterFrame f).latchedFrames = s.latchedFrames := rfl

/-- A frame transfer adds the call's next frame, so the base of the call stays. -/
theorem callFrom_afterFrame {s : State} {f : Frame} {base : List Transfer} (h : s.Inv)
    (hp : s.phase = phaseEmit) (hf : s.frameOnOffer = some f) (hbase : s.CallFrom base) :
    (s.afterFrame f).CallFrom base := by
  have hl := h.call (emit_ne_idle_of hp)
  obtain ⟨hlt, -⟩ := h.emit hp
  obtain ⟨-, hobs⟩ := hbase
  have hget : s.latchedFrames[s.k.toNat]? = some f := by
    rw [latchedFrames_get h.legal hl hlt, ← frameOnOffer_of_latched h.legal hl hlt, hf]
  refine ⟨?_, ?_⟩
  · rw [afterFrame_phase]
    split_ifs
    · exact idle_ne_resp.symm
    · exact idle_ne_emit.symm
  · rw [afterFrame_obs, afterFrame_k, k_succ_toNat hlt, afterFrame_latchedFrames, List.take_add_one, hget, hobs]
    simp

/-- The functional definition's transfers of a latched call: its frames, then the response in the registers. -/
theorem transfers_of_latched {s : State} (hl : s.CallLatched) {seq : Nat} (htag : seqTag seq = s.tag) :
    (fragmentCall s.inBuf.bytes seq s.cfg.cap).transfers =
      s.latchedFrames.map .frm ++ [.rsp s.responseOnOffer] := by
  have ⟨_, ⟨_, hlen, _⟩, _, hn, _, hst⟩ := hl
  have hcount : s.nfr = BitVec.ofNat 3 (nframes s.len s.cfg.cap) := by simp [← hn]
  rcases Nat.lt_or_ge (4 * s.cfg.cap) s.inBuf.bytes.length with h | h
  · have hframes : s.latchedFrames = [] := callFrames_oversize h
    rw [hlen, nframes_oversize h] at hcount
    simp [fragmentCall, h, hframes, CallResult.transfers, CallResult.response, State.responseOnOffer, hst, hlen,
      hcount]
  · simp [fragmentCall, Nat.not_lt.2 h, htag, CallResult.transfers, CallResult.response, State.responseOnOffer,
      State.latchedFrames, hst, hlen, hcount]

/-- The response transfer leaves exactly the call's transfers after its base. -/
theorem obs_afterResponse {s : State} {base : List Transfer} (h : s.Inv) (hp : s.phase = phaseResp)
    (hbase : s.CallFrom base) {seq : Nat} (htag : seqTag seq = s.tag) :
    s.afterResponse.obs = base ++ (fragmentCall s.inBuf.bytes seq s.cfg.cap).transfers := by
  have hl := h.call (resp_ne_idle_of hp)
  obtain ⟨hk, -⟩ := h.resp hp
  obtain ⟨-, hobs⟩ := hbase
  have hall : s.latchedFrames.take s.k.toNat = s.latchedFrames := by
    rw [hk, ← latchedFrames_length hl, List.take_length]
  rw [afterResponse_obs, hobs, hall, transfers_of_latched hl htag, List.append_assoc]

/-- Settles O48: a step outside the block keeps the call and its base, and of the transfers ACCEPT sets the base,
a frame keeps it, and the response completes the call. -/
theorem responseEndsExactlyTheCall : Obligations.ResponseEndsExactlyTheCall := by
  intro s t h hr hstep
  obtain ⟨u, -, -, rfl⟩ | ⟨r, hi, hhead, -, rfl⟩ | ⟨f, hp, -, hf, rfl⟩ | ⟨hp, -, rfl⟩ := step_cases hr hstep
  · exact ⟨fun hi hb => absurd hi hb, fun base hbase => ⟨fun _ => ⟨hbase, rfl, rfl⟩, fun hi => absurd hi hbase.1⟩⟩
  · refine ⟨fun _ _ => ⟨callFrom_accept (turnState s) r, ?_, r, hhead, ?_, ?_⟩,
      fun base hbase => absurd hi hbase.1⟩ <;> simp
  · refine ⟨fun hi => absurd hi (emit_ne_idle_of hp), fun base hbase => ?_⟩
    have hnext := callFrom_afterFrame (inv_turnState h) hp hf hbase
    exact ⟨fun _ => ⟨hnext, rfl, rfl⟩, fun hi => absurd hi hnext.1⟩
  · exact ⟨fun hi => absurd hi (resp_ne_idle_of hp), fun base hbase =>
      ⟨fun hb => absurd rfl hb, fun _ _ htag => obs_afterResponse (inv_turnState h) hp hbase htag⟩⟩

/-! ## What the block offers is taken -/

/-- A state with the invariant exists and does not fault. -/
theorem sound_of_inv {s : State} (h : s.Inv) : s.Sound := by
  have hcases : ∀ p : BitVec 2, p = phaseNone ∨ p = phaseIdle ∨ p = phaseEmit ∨ p = phaseResp := by decide
  rcases hcases s.phase with hp | hp | hp | hp
  · exact absurd hp h.phase
  · exact sound_of_idle h.legal hp
  · have hl := h.call (emit_ne_idle_of hp)
    have ⟨hwritten, _⟩ := hl
    obtain ⟨hlt, -⟩ := h.emit hp
    exact sound_of_emit h.legal hp hwritten ((frameBound_iff s).2 ⟨hlt, bound_of_latched h.legal hl⟩)
      (frameOnOffer_of_latched h.legal hl hlt)
  · obtain ⟨hwritten, -⟩ := h.call (resp_ne_idle_of hp)
    exact sound_of_resp h.legal hp hwritten

/-- The five frame kinds are what a call's kind bits can be. -/
theorem decodeFlags_of_kind (q : BitVec 5) (frag : Bool) {i : Nat} (hi : i < 4) :
    ∃ op, decodeFlags (q ++ kindOf frag i) = .ok op := by
  have hkind : kindOf frag i ∈ [0b000#3, 0b001#3, 0b011#3, 0b101#3, 0b111#3] := by
    revert frag i; decide
  simp only [List.mem_cons, List.not_mem_nil, or_false] at hkind
  unfold decodeFlags
  rcases hkind with hk | hk | hk | hk | hk <;> rw [kindField_append, hk] <;> exact ⟨_, rfl⟩

/-- The frame on offer in a call carries the byte of one of the frame kinds. -/
theorem frameOnOffer_decodes {s : State} (h : s.Inv) (hp : s.phase = phaseEmit) :
    ∃ f op, s.frameOnOffer = some f ∧ decode (.frm f.flags) = .ok op := by
  obtain ⟨hlt, -⟩ := h.emit hp
  obtain ⟨op, hop⟩ := decodeFlags_of_kind (seqField s.tag) s.frag (hlt.trans_le h.nfrBound)
  exact ⟨_, op, frameOnOffer_of_latched h.legal (h.call (emit_ne_idle_of hp)) hlt, hop⟩

theorem decodeResponse_oversize : decodeResponse (responseWord ⟨true, 0#3⟩) = .ok .rspOversize := by decide

theorem decodeResponse_ok {n : BitVec 3} (h1 : 1 ≤ n.toNat) (h4 : n.toNat ≤ 4) :
    decodeResponse (responseWord ⟨false, n⟩) = .ok (.rspOk n) := by
  revert n; decide

/-- The response on offer in a call is one of the five words of R77. -/
theorem responseOnOffer_decodes {s : State} (h : s.Inv) (hp : s.phase = phaseResp) :
    ∃ op, decode (.rsp (responseWord s.responseOnOffer)) = .ok op := by
  have ⟨_, _, _, hn, _, hst⟩ := h.call (resp_ne_idle_of hp)
  rcases Nat.lt_or_ge (4 * s.cfg.cap) s.len with hL | hL
  · have hnfr : s.nfr = 0#3 := BitVec.eq_of_toNat_eq (by rw [hn, nframes_oversize hL]; rfl)
    rw [decide_eq_true hL] at hst
    rw [State.responseOnOffer, hst, hnfr]
    exact ⟨_, decodeResponse_oversize⟩
  · have hpos : 0 < s.nfr.toNat := hn ▸ (lt_nframes_iff (legal_cap h.legal).1 hL 0).2 (.inl rfl)
    rw [decide_eq_false (Nat.not_lt.2 hL)] at hst
    rw [State.responseOnOffer, hst]
    exact ⟨_, decodeResponse_ok hpos h.nfrBound⟩

/-! ## Agents that accept every item -/

/-- The sink and the caller accept, no reset is asserted and nothing is scheduled: every step is the block's turn. -/
structure Accepting (s : State) : Prop where
  frmReady : s.frmReady = true
  rspReady : s.rspReady = true
  rst : s.rst = false
  env : s.env = []

theorem accepting_turnState {s : State} (h : Accepting s) : Accepting (turnState s) :=
  ⟨h.frmReady, h.rspReady, h.rst, by simp [turnState, h.env]⟩

theorem accepting_choosePath {s : State} (h : Accepting s) : Accepting s.choosePath := by
  obtain ⟨-, -, -, -, -, -, -, hfrm, hrsp, hrst, henv, -⟩ := choosePath_kept s
  exact ⟨hfrm.trans h.frmReady, hrsp.trans h.rspReady, hrst.trans h.rst, henv.trans h.env⟩

theorem accepting_latchRequest {s : State} (h : Accepting s) (r : Request) : Accepting (s.latchRequest r) :=
  ⟨h.frmReady, h.rspReady, h.rst, h.env⟩

theorem accepting_afterFrame {s : State} (h : Accepting s) (f : Frame) : Accepting (s.afterFrame f) :=
  ⟨h.frmReady, h.rspReady, h.rst, h.env⟩

theorem accepting_afterResponse {s : State} (h : Accepting s) : Accepting s.afterResponse :=
  ⟨h.frmReady, h.rspReady, h.rst, h.env⟩

/-- With such agents a step runs the operation on offer. -/
theorem step_of_accepting {s : State} {w : ChannelWord} {op : Instr} (hs : s.Sound) (ha : Accepting s)
    (hw : s.fetchWord = some w) (hd : decode w = .ok op) : step s = exec op (turnState s) :=
  stepRunsTheDecodedOperation s w op hs ha.rst (.inl ha.env) hw hd

/-- An idle block takes the request on offer. -/
theorem step_accept {s : State} {r : Request} (hs : s.Sound) (ha : Accepting s) (hp : s.phase = phaseIdle)
    (hhead : s.pending.head? = some r) (hw : r.wf s.cfg = true) :
    step s = .next ((turnState s).latchRequest r).choosePath := by
  rw [step_of_accepting hs ha (w := .req r) (by simp [State.fetchWord, hp, hhead]) rfl]
  exact acceptRequest_taken (turnState_sound hs) hp hhead hw

/-- In EMIT the sink takes the frame on offer. -/
theorem step_emit {s : State} (h : s.Inv) (ha : Accepting s) (hp : s.phase = phaseEmit) :
    ∃ f, s.frameOnOffer = some f ∧ step s = .next ((turnState s).afterFrame f) := by
  have hs := sound_of_inv h
  obtain ⟨f, op, hf, hd⟩ := frameOnOffer_decodes h hp
  refine ⟨f, hf, ?_⟩
  rw [step_of_accepting hs ha (by simp [State.fetchWord, hp, ha.frmReady, hf, idle_ne_emit.symm]) hd,
    exec_of_encode_frm (encode_of_decodeFlags hd)]
  exact takeFrame_taken (turnState_sound hs) hp ha.frmReady hf rfl

/-- In RESP the caller takes the response on offer. -/
theorem step_respond {s : State} (h : s.Inv) (ha : Accepting s) (hp : s.phase = phaseResp) :
    step s = .next (turnState s).afterResponse := by
  have hs := sound_of_inv h
  obtain ⟨op, hd⟩ := responseOnOffer_decodes h hp
  rw [step_of_accepting hs ha (by simp [State.fetchWord, hp, ha.rspReady, idle_ne_resp.symm, emit_ne_resp.symm]) hd,
    exec_of_encode_rsp (encode_of_decodeResponse hd)]
  exact takeResponse_taken (turnState_sound hs) hp ha.rspReady rfl

/-! ## Whole calls -/

/-- The state after a whole call: idle under accepting agents again, with the parameters, the requests still on
offer and the transfers given. -/
structure Served (t : State) (c : Config) (rest : List Request) (ts : List Transfer) : Prop where
  phase : t.phase = phaseIdle
  accepting : Accepting t
  cfg : t.cfg = c
  pending : t.pending = rest
  obs : t.obs = ts

/-- A call in progress runs to its end: its remaining frames, one a step, then its response. -/
theorem run_call {base : List Transfer} {seq : Nat} : ∀ (n : Nat) {s : State}, s.Inv → Accepting s →
    s.CallFrom base → seqTag seq = s.tag → s.k.toNat + n = s.nfr.toNat →
    ∃ t, Host.Core.run core (n + 1) s = .next t ∧
      Served t s.cfg s.pending (base ++ (fragmentCall s.inBuf.bytes seq s.cfg.cap).transfers) := by
  intro n
  induction n with
  | zero =>
    intro s h ha hbase htag hn
    have hp : s.phase = phaseResp := by
      rcases phase_of_sound (sound_of_inv h) with hp | hp | hp
      · exact absurd hp hbase.1
      · have := (h.emit hp).1; omega
      · exact hp
    exact ⟨_, run_succ (step_respond h ha hp) 0, rfl, accepting_afterResponse (accepting_turnState ha), rfl, rfl,
      obs_afterResponse (inv_turnState h) hp hbase htag⟩
  | succ n ih =>
    intro s h ha hbase htag hn
    have hp : s.phase = phaseEmit := by
      rcases phase_of_sound (sound_of_inv h) with hp | hp | hp
      · exact absurd hp hbase.1
      · exact hp
      · rw [(h.resp hp).1] at hn; omega
    obtain ⟨f, hf, hstep⟩ := step_emit h ha hp
    have hk : ((turnState s).afterFrame f).k.toNat = s.k.toNat + 1 := k_succ_toNat (h.emit hp).1
    have hcount : ((turnState s).afterFrame f).k.toNat + n = s.nfr.toNat := by omega
    obtain ⟨t, hrun, ht⟩ := ih (stepKeepsTheInvariant _ _ h hstep)
      (accepting_afterFrame (accepting_turnState ha) f)
      (callFrom_afterFrame (inv_turnState h) hp hf hbase) htag hcount
    exact ⟨t, (run_succ hstep _).trans hrun, ht⟩

/-- An idle block serves the request on offer: ACCEPT, then the call to its end. -/
theorem run_request {s : State} {r : Request} {rest : List Request} (hs : s.Sound) (ha : Accepting s)
    (hp : s.phase = phaseIdle) (hpend : s.pending = r :: rest) (hw : r.wf s.cfg = true) :
    ∃ t, Host.Core.run core (nframes r.input.length s.cfg.cap + 2) s = .next t ∧
      Served t s.cfg rest (s.obs ++ (fragmentCall r.input r.seq s.cfg.cap).transfers) := by
  have hstep := step_accept hs ha hp (by rw [hpend]; rfl) hw
  have hinv := inv_accept (s := turnState s) hs.1 hw
  obtain ⟨hn, -⟩ := choosePath_path ((turnState s).latchRequest r) (legal_cap hs.1).1
  obtain ⟨t, hrun, ht⟩ := run_call (seq := r.seq) (nframes r.input.length s.cfg.cap) hinv
    (accepting_choosePath (accepting_latchRequest (accepting_turnState ha) r))
    (callFrom_accept (turnState s) r) (by simp) (by rw [hn]; simp [turnState])
  refine ⟨t, (run_succ hstep _).trans hrun, ?_⟩
  simpa [turnState, hpend] using ht

/-- Settles O50, by induction on the requests: each call leaves the block idle, with the rest on offer. -/
theorem requestsAreServedOneAfterAnother : Obligations.RequestsAreServedOneAfterAnother := by
  intro reqs
  induction reqs with
  | nil =>
    intro s _ hp hpend _ _ _ _ henv
    exact ⟨0, s, rfl, by simp [programTransfers], hp, hpend, henv⟩
  | cons r rest ih =>
    intro s hs hp hpend hwf hfrm hrsp hrst henv
    obtain ⟨u, hrun, hu⟩ := run_request hs ⟨hfrm, hrsp, hrst, henv⟩ hp hpend (hwf r List.mem_cons_self)
    obtain ⟨hp', ⟨hfrm', hrsp', hrst', henv'⟩, hcfg, hpend', hobs'⟩ := hu
    obtain ⟨n, t, hrun', hobs, hfin⟩ := ih u (sound_of_idle (hcfg ▸ hs.1) hp') hp' hpend'
      (fun q hq => hcfg ▸ hwf q (List.mem_cons_of_mem r hq)) hfrm' hrsp' hrst' henv'
    refine ⟨_, t, (run_add n hrun).trans hrun', ?_, hfin⟩
    rw [hobs, hobs', hcfg]
    simp [programTransfers]

end Sys2Proof.Proofs
end

section
/-! SUPPORT. Proofs for the encodings (30_encoding.md): decoder and encoder are inverse to each other, the decoder
refuses exactly the reserved words, the `flags` byte is three disjoint fields, and neither the functional
definition nor the block gives a word that is never produced. -/

namespace Sys2Proof.Proofs

open Sys2Proof.Machine Sys2Proof.Laws

/-! ## Decoder and encoder -/

/-- The decoder on a byte written as SEQ over kind bits. -/
theorem decodeFlags_append (q : BitVec 5) (x : BitVec 3) :
    decodeFlags (q ++ x) =
      if x = 0b000#3 then .ok (.frameSingle q)
      else if x = 0b001#3 then .ok (.frameFrag0 q)
      else if x = 0b011#3 then .ok (.frameFrag1 q)
      else if x = 0b101#3 then .ok (.frameFrag2 q)
      else if x = 0b111#3 then .ok (.frameFrag3 q)
      else .error (.reservedFlags (q ++ x)) := by
  rw [decodeFlags, kindField_append, seqField_append]

/-- Settles O1: a frame kind reads back its kind bits and its SEQ, and a well-formed count is one of R77's. -/
theorem decodeEncodeAgree : Obligations.DecodeEncodeAgree := by
  intro c i hw
  cases i with
  | fragment r => rfl
  | frameSingle q => exact decodeFlags_append q 0b000#3
  | frameFrag0 q => exact decodeFlags_append q 0b001#3
  | frameFrag1 q => exact decodeFlags_append q 0b011#3
  | frameFrag2 q => exact decodeFlags_append q 0b101#3
  | frameFrag3 q => exact decodeFlags_append q 0b111#3
  | rspOk n =>
    simp only [Instr.wf, Bool.and_eq_true, decide_eq_true_eq] at hw
    obtain ⟨h1, h4⟩ := hw
    exact decodeResponse_ok h1 h4
  | rspOversize => exact decodeResponse_oversize

/-- Settles O2, channel by channel. -/
theorem encodeDecodeAgree : Obligations.EncodeDecodeAgree := by
  intro w i h
  cases w with
  | req r => cases h; rfl
  | frm b => exact encode_of_decodeFlags h
  | rsp w => exact encode_of_decodeResponse h

/-- The reserved `flags` bytes are those whose kind bits belong to no row (R80). -/
theorem decodeFlags_error_iff (b : Byte) :
    decodeFlags b = .error (.reservedFlags b) ↔
      kindField b = 0b010#3 ∨ kindField b = 0b100#3 ∨ kindField b = 0b110#3 := by
  have hrest : ∀ x : BitVec 3,
      ¬ (x = 0b000#3 ∨ x = 0b001#3 ∨ x = 0b011#3 ∨ x = 0b101#3 ∨ x = 0b111#3) →
      x = 0b010#3 ∨ x = 0b100#3 ∨ x = 0b110#3 := by decide
  unfold decodeFlags
  split_ifs with h0 h1 h2 h3 h4
  · simp [h0]
  · simp [h1]
  · simp [h2]
  · simp [h3]
  · simp [h4]
  · exact iff_of_true rfl (hrest _ (by tauto))

/-- The reserved response words are all but the five of R77 (R82). -/
theorem decodeResponse_error_iff (w : BitVec 4) :
    decodeResponse w = .error (.reservedResponse w) ↔
      ¬ (w = 0b0010#4 ∨ w = 0b0100#4 ∨ w = 0b0110#4 ∨ w = 0b1000#4 ∨ w = 0b0001#4) := by
  revert w; decide

/-- Settles O3, channel by channel. -/
theorem decoderRefusesExactlyReserved : Obligations.DecoderRefusesExactlyReserved :=
  ⟨decodeFlags_error_iff, decodeResponse_error_iff, fun _ => rfl⟩

/-- Settles O5: the decoder evaluated on the eight words. -/
theorem writtenOutWordsDecode : Obligations.WrittenOutWordsDecode := by
  unfold Obligations.WrittenOutWordsDecode
  decide

/-! ## The fields of the `flags` byte -/

theorem extractFrag_append (q : BitVec 5) (x : BitVec 3) :
    (q ++ x : Byte).extractLsb' 0 1 = x.extractLsb' 0 1 :=
  BitVec.extractLsb'_append_eq_of_add_le (by decide)

theorem extractIdx_append (q : BitVec 5) (x : BitVec 3) :
    (q ++ x : Byte).extractLsb' 1 2 = x.extractLsb' 1 2 :=
  BitVec.extractLsb'_append_eq_of_add_le (by decide)

theorem extract_idx_append_frag (f : BitVec 1) (x : BitVec 2) :
    (x ++ f : BitVec 3).extractLsb' 0 1 = f ∧ (x ++ f : BitVec 3).extractLsb' 1 2 = x := by
  revert f x; decide

/-- The fields do not overlap, so the assembled byte is their sum. -/
theorem assembleFlags_toNat (f : BitVec 1) (x : BitVec 2) (q : BitVec 5) :
    (assembleFlags f x q).toNat = f.toNat + 2 * x.toNat + 8 * q.toNat := by
  have hkind : (x ++ f : BitVec 3).toNat = 2 * x.toNat + f.toNat := by
    rw [BitVec.toNat_append, ← Nat.shiftLeft_add_eq_or_of_lt f.isLt, Nat.shiftLeft_eq]; omega
  rw [assembleFlags_append, BitVec.toNat_append, ← Nat.shiftLeft_add_eq_or_of_lt (x ++ f).isLt, hkind,
    Nat.shiftLeft_eq]
  omega

theorem assembleFlags_fields (f : BitVec 1) (x : BitVec 2) (q : BitVec 5) :
    (assembleFlags f x q).extractLsb' 0 1 = f ∧ (assembleFlags f x q).extractLsb' 1 2 = x ∧
      (assembleFlags f x q).extractLsb' 3 5 = q := by
  obtain ⟨hf, hx⟩ := extract_idx_append_frag f x
  rw [assembleFlags_append, extractFrag_append, extractIdx_append]
  exact ⟨hf, hx, seqField_append q _⟩

/-- `flags_of` for a tag in place, where R106 defines it. -/
theorem flagsOf_of_tag {t : Byte} (ht : kindField t = 0#3) {frag : Bool} {i : Nat} (hi : i < 4)
    (hfrag : frag = true ∨ i = 0) : flagsOf frag i t = some (seqField t ++ kindOf frag i) := by
  cases frag with
  | true => exact flagsFrag_of_tag ht hi
  | false =>
    obtain rfl : i = 0 := by simpa using hfrag
    have hsplit := seqField_append_kindField t
    rw [ht] at hsplit
    exact congrArg some hsplit.symm

/-- The kind bits are IDX, the low bits of `k`, over FRAG. -/
theorem kindOf_append {frag : Bool} {k : BitVec 3} (hk : k.toNat < 4) (hfrag : frag = true ∨ k = 0#3) :
    kindOf frag k.toNat = k.extractLsb' 0 2 ++ BitVec.ofBool frag := by
  revert frag k; decide

/-- The byte the block computes is the one assembled from FRAG, IDX and SEQ (R79, R106). -/
theorem flagsOf_seqTag {frag : Bool} {k : BitVec 3} (seq : Nat) (hk : k.toNat < 4)
    (hfrag : frag = true ∨ k = 0#3) :
    flagsOf frag k.toNat (seqTag seq) =
      some (assembleFlags (BitVec.ofBool frag) (k.extractLsb' 0 2) (BitVec.ofNat 5 (seq % 32))) := by
  have hzero : frag = true ∨ k.toNat = 0 := hfrag.imp_right (fun h => by rw [h]; rfl)
  rw [flagsOf_of_tag (kindField_seqTag seq) hk hzero, assembleFlags_append, seqField_seqTag, ofNat_five_mod,
    kindOf_append hk hfrag]

/-- Settles O4: the OR is the definition of the assembled byte, and the byte is SEQ over IDX over FRAG. -/
theorem flagsByteIsThreeDisjointFields : Obligations.FlagsByteIsThreeDisjointFields := by
  have hframe : ∀ f x q, ChannelWord.frm (q ++ (x ++ f : BitVec 3)) = .frm (assembleFlags f x q) :=
    fun f x q => congrArg ChannelWord.frm (assembleFlags_append f x q).symm
  exact ⟨fun f x q => ⟨rfl, assembleFlags_toNat f x q, assembleFlags_fields f x q⟩,
    fun q => ⟨hframe 0 0 q, hframe 1 0 q, hframe 1 1 q, hframe 1 2 q, hframe 1 3 q⟩,
    fun _ _ seq hk hfrag => flagsOf_seqTag seq hk hfrag⟩

/-! ## The frames of the functional definition -/

@[simp] theorem chunkFrame_flags (input : List Byte) (cap i : Nat) (fl : Byte) :
    (chunkFrame input cap i fl).flags = fl := rfl

@[simp] theorem chunkFrame_payload_length (input : List Byte) (cap i : Nat) (fl : Byte) :
    (chunkFrame input cap i fl).payload.length = cap := by
  simp [chunkFrame, zeros]

/-- A chunk is never longer than a byte can count, since `C <= 255` (R143). -/
theorem chunkFrame_length_toNat (input : List Byte) {cap : Nat} (hcap : cap ≤ 255) (i : Nat) (fl : Byte) :
    (chunkFrame input cap i fl).length.toNat = min cap (input.length - i * cap) := by
  rw [chunkFrame_eq, BitVec.toNat_ofNat, Nat.mod_eq_of_lt (by omega)]

/-- On the fragmented path every chunk starts inside the input (R132). -/
theorem chunk_start_lt {L C i : Nat} (hC : 1 ≤ C) (h1 : C < L) (h2 : L ≤ 4 * C) (hi : i < nframes L C) :
    i * C < L := by
  rwa [nframes_fragmented h1 h2, lt_ceilDiv_iff hC] at hi

/-- Every chunk but the last ends inside the input (R131). -/
theorem chunk_end_lt {L C i : Nat} (hC : 1 ≤ C) (hL : L ≤ 4 * C) (hi : i + 1 < nframes L C) :
    i * C + C < L := by
  have hnext := (lt_nframes_iff hC hL (i + 1)).1 hi
  rw [Nat.add_mul, Nat.one_mul] at hnext
  omega

/-- Frame `i` of a call: chunk `i` under the call's tag and the kind of its path. -/
theorem callFrames_getElem? {input : List Byte} {t : Byte} {cap i : Nat} {f : Frame} (hC : 1 ≤ cap)
    (ht : kindField t = 0#3) (hL : input.length ≤ 4 * cap) (h : (callFrames input t cap)[i]? = some f) :
    i < nframes input.length cap ∧
      f = chunkFrame input cap i (seqField t ++ kindOf (decide (cap < input.length)) i) := by
  obtain ⟨hi, hget⟩ := List.getElem?_eq_some_iff.1 h
  rw [callFrames_length] at hi
  refine ⟨hi, ?_⟩
  rcases Nat.lt_or_ge cap input.length with h1 | h1
  · have hi4 : i < 4 := hi.trans_le (nframes_le_four hC)
    simp only [callFrames_fragmented h1 hL, List.getElem_map, List.getElem_range] at hget
    rw [← hget, refFlags_of_tag ht hi4, decide_eq_true h1]
    rfl
  · rw [nframes_single h1] at hi
    obtain rfl : i = 0 := by omega
    have hsplit := seqField_append_kindField t
    rw [ht] at hsplit
    simp only [callFrames_single h1, List.getElem_cons_zero] at hget
    rw [← hget, decide_eq_false (Nat.not_lt.2 h1), kindOf, if_neg (by decide), hsplit]

/-- The kind bits of frame `i` of a fragmented call: FRAG is set and IDX is the position. -/
theorem fragKind_fields {i : Nat} (hi : i < 4) :
    (fragKind i).extractLsb' 0 1 = 1#1 ∧ ((fragKind i).extractLsb' 1 2).toNat = i := by
  revert i; decide

/-- Settles O14: frame `i` is chunk `i` under the tag and kind bits `callFrames_getElem?` states. -/
theorem callFramesHaveOneTagAndRisingIndex : Obligations.CallFramesHaveOneTagAndRisingIndex := by
  intro input seq cap hC hcap hL
  refine ⟨callFrames input (seqTag seq) cap, if_neg (Nat.not_lt.2 hL), callFrames_length _ _ _, ?_⟩
  intro i f hf
  obtain ⟨hi, rfl⟩ := callFrames_getElem? hC (kindField_seqTag seq) hL hf
  rw [chunkFrame_payload_length, chunkFrame_length_toNat input hcap, chunkFrame_flags, callFrames_length,
    seqField_seqTag, extractFrag_append, extractIdx_append]
  refine ⟨rfl, Nat.min_le_left _ _, seqField_append _ _, fun hsingle => ?_, fun hfrag => ?_, fun hnext => ?_⟩
  · rw [decide_eq_false (Nat.not_lt.2 hsingle)]
    exact kindField_append _ _
  · obtain ⟨hbit, hidx⟩ := fragKind_fields (hi.trans_le (nframes_le_four hC))
    have hstart := chunk_start_lt hC hfrag hL hi
    rw [decide_eq_true hfrag]
    exact ⟨hbit, hidx, by omega⟩
  · have hend := chunk_end_lt hC hL hnext
    omega

/-! ## What the block offers -/

/-- The chunk by the rules' words is the chunk of the functional definition. -/
theorem chunk_eq_chunkFrame {s : State} (hlen : s.len = s.inBuf.bytes.length) (i : Nat) (fl : Byte) :
    s.chunk i fl = chunkFrame s.inBuf.bytes s.cfg.cap i fl := by
  rw [chunkFrame_eq, State.chunk, hlen]

/-- The FRAG bit of a byte of the block is the call's flag. -/
theorem frag_of_flags {q : BitVec 5} {frag : Bool} {i : Nat}
    (h : (q ++ kindOf frag i : Byte).extractLsb' 0 1 = 1#1) : frag = true := by
  rw [extractFrag_append] at h
  cases frag with
  | true => rfl
  | false => exact absurd h (by simp [kindOf])

/-- The lengths of the frame on offer: at most `C`, padded to `C`, and not 0 in a fragmented call (R75, R81). -/
theorem frameOnOffer_lengths {s : State} {f : Frame} (h : s.Inv) (hp : s.phase = phaseEmit)
    (hf : s.frameOnOffer = some f) :
    f.length.toNat ≤ s.cfg.cap ∧ f.payload.length = s.cfg.cap ∧
      (f.flags.extractLsb' 0 1 = 1#1 → 1 ≤ f.length.toNat) := by
  have hl := h.call (emit_ne_idle_of hp)
  have ⟨_, ⟨_, hlen, _⟩, _, hn, hfrag, _⟩ := hl
  obtain ⟨hlt, -⟩ := h.emit hp
  obtain ⟨hC, hcap⟩ := legal_cap h.legal
  rw [frameOnOffer_of_latched h.legal hl hlt, chunk_eq_chunkFrame hlen] at hf
  cases hf
  rw [chunkFrame_length_toNat _ hcap, chunkFrame_payload_length, chunkFrame_flags, ← hlen]
  refine ⟨Nat.min_le_left _ _, rfl, fun hbit => ?_⟩
  obtain ⟨h1, h2⟩ := of_decide_eq_true (hfrag.symm.trans (frag_of_flags hbit))
  have hstart := chunk_start_lt hC h1 h2 (hn ▸ hlt)
  omega

/-- Settles O47: under the invariant what is on offer is a frame or the response of the latched call. -/
theorem neverProducedWordsAreNotOffered : Obligations.NeverProducedWordsAreNotOffered := by
  intro s h
  refine ⟨fun hv => ?_, fun hv => ?_⟩
  · obtain ⟨hp, -⟩ := (frmValid_iff s).1 hv
    obtain ⟨f, op, hf, hd⟩ := frameOnOffer_decodes h hp
    exact ⟨f, hf, ⟨op, hd⟩, frameOnOffer_lengths h hp hf⟩
  · rw [outputs_rsp hv]
    exact responseOnOffer_decodes h ((rspValid_iff s).1 hv)

end Sys2Proof.Proofs
end

section
/-! SUPPORT. Proofs for the step machine of the fragmenter (40_packet_fragmenter.md): a state with the invariant
never stops, the functional definition conserves the input, and what each operation completes with and leaves
unchanged. -/

namespace Sys2Proof.Proofs

open Sys2Proof.Machine Sys2Proof.Laws

/-! ## What the transfers rest on -/

@[simp] theorem choosePath_len (s : State) : s.choosePath.len = s.len := by
  obtain ⟨-, -, h, -⟩ := choosePath_kept s
  exact h

@[simp] theorem choosePath_env (s : State) : s.choosePath.env = s.env := by
  obtain ⟨-, -, -, -, -, -, -, -, -, -, h, -⟩ := choosePath_kept s
  exact h

/-- The bound of R111 at the frame a sound block offers. -/
theorem bound_of_emit {s : State} (hs : s.Sound) (hp : s.phase = phaseEmit) :
    s.k.toNat < s.nfr.toNat ∧ s.nfr.toNat ≤ 4 ∧ (s.frag = true ↔ 2 ≤ s.nfr.toNat) := by
  obtain ⟨-, hb, -⟩ := emit_of_sound hs hp
  exact (frameBound_iff s).1 hb

/-- A request that is not on offer to an idle block is not taken (R109). -/
theorem acceptRequest_held {r : Request} {s : State} (hs : s.Sound)
    (h : s.phase ≠ phaseIdle ∨ s.pending.head? ≠ some r) : acceptRequest r s = .next s := by
  rw [acceptRequest, guarded_of_sound hs, if_neg (by tauto)]

/-! ## The machine never stops -/

/-- In a state with the invariant the block's turn answers a next state: it waits, or what is on offer decodes to
an operation whose transfer takes place. -/
theorem runBlock_progress {s : State} (h : s.Inv) (hcaller : s.CallerWf) : ∃ t, runBlock s = .next t := by
  have hs := sound_of_inv h
  cases hw : s.fetchWord with
  | none => exact ⟨s, by simp [runBlock, State.fetch, hw]⟩
  | some w =>
    have hw' := hw
    unfold State.fetchWord at hw'
    split_ifs at hw' with hi he hfrm hp hrsp
    · obtain ⟨r, hr, rfl⟩ := Option.map_eq_some_iff.1 hw'
      have hwf := hcaller.1 r (List.mem_of_mem_head? hr)
      rw [runBlock_of_fetchWord hw rfl]
      exact ⟨_, acceptRequest_taken hs hi hr hwf⟩
    · obtain ⟨f, hf, rfl⟩ := Option.map_eq_some_iff.1 hw'
      obtain ⟨f', op, hf', hd⟩ := frameOnOffer_decodes h he
      cases hf.symm.trans hf'
      rw [runBlock_of_fetchWord hw hd, exec_of_encode_frm (encode_of_decodeFlags hd)]
      exact ⟨_, takeFrame_taken hs he hfrm hf rfl⟩
    · cases hw'
      obtain ⟨op, hd⟩ := responseOnOffer_decodes h hp
      rw [runBlock_of_fetchWord hw hd, exec_of_encode_rsp (encode_of_decodeResponse hd)]
      exact ⟨_, takeResponse_taken hs hp hrsp rfl⟩

/-- Taking a move off the schedule leaves a caller that presents only what REQ can carry. -/
theorem callerWf_turnState {s : State} (h : s.CallerWf) : (turnState s).CallerWf :=
  ⟨h.1, fun m hm => h.2 m (List.mem_of_mem_tail hm)⟩

/-- A step answers a next state, whoever moves: reset, a move of another agent, or the block's turn. -/
theorem step_progress {s : State} (h : s.Inv) (hcaller : s.CallerWf) : ∃ t, step s = .next t := by
  have hs := sound_of_inv h
  cases hr : s.rst with
  | true => exact ⟨_, step_of_reset hs hr⟩
  | false =>
    by_cases hblock : s.env = [] ∨ s.env.head? = some .run
    · rw [step_of_block hs hr hblock]
      exact runBlock_progress (inv_turnState h) (callerWf_turnState hcaller)
    · cases henv : s.env with
      | nil => exact absurd (.inl henv) hblock
      | cons m rest =>
        refine ⟨_, step_of_move hs hr henv fun hm => hblock (.inr ?_)⟩
        rw [henv, hm]; rfl

/-- A move takes over the requests and the schedule, and presents at most its own request. -/
theorem callerWf_applyMove {s : State} {m : Move} (h : s.CallerWf) (hm : m.wf s.cfg = true) :
    (s.applyMove m).CallerWf := by
  obtain ⟨hpend, henv⟩ := h
  cases m with
  | present r =>
    refine ⟨fun q hq => ?_, henv⟩
    rcases List.mem_append.1 hq with hq | hq
    · exact hpend q hq
    · rw [List.mem_singleton.1 hq]; exact hm
  | sinkReady b => exact ⟨hpend, henv⟩
  | callerReady b => exact ⟨hpend, henv⟩
  | assertReset => exact ⟨hpend, henv⟩
  | run => exact ⟨hpend, henv⟩

/-- The block presents nothing: its turn leaves the requests, or takes the first. -/
theorem callerWf_runBlock {s t : State} (h : s.CallerWf) (hrun : runBlock s = .next t) : t.CallerWf := by
  obtain ⟨-, rfl⟩ | ⟨r, -, -, -, rfl⟩ | ⟨f, -, -, -, rfl⟩ | ⟨-, -, rfl⟩ := runBlock_next hrun
  · exact h
  · refine ⟨fun q hq => ?_, fun m hm => ?_⟩
    · rw [choosePath_pending, latchRequest_pending] at hq
      rw [choosePath_cfg]
      exact h.1 q (List.mem_of_mem_tail hq)
    · rw [choosePath_env] at hm
      rw [choosePath_cfg]
      exact h.2 m hm
  · exact h
  · exact h

theorem callerWf_step {s t : State} (h : s.CallerWf) (hstep : step s = .next t) : t.CallerWf := by
  obtain ⟨-, ⟨-, rfl⟩ | ⟨m, rest, -, henv, rfl⟩ | ⟨-, -, hrun⟩⟩ := step_next hstep
  · exact h
  · exact callerWf_applyMove (callerWf_turnState h) (h.2 m (henv ▸ List.mem_cons_self))
  · exact callerWf_runBlock (callerWf_turnState h) hrun

/-- Settles O46: a step answers a next state, which keeps the invariant (O45), and its requests on offer are those
on offer before or the one the caller's move presented. -/
theorem invariantStatesNeverStop : Obligations.InvariantStatesNeverStop := by
  intro s h hcaller
  obtain ⟨t, ht⟩ := step_progress h hcaller
  exact ⟨t, ht, stepKeepsTheInvariant s t h ht, callerWf_step hcaller ht⟩

/-! ## The functional definition conserves the input -/

/-- On every path the frames of a call are its chunks in order. -/
theorem callFrames_eq_chunks (input : List Byte) (t : Byte) (cap : Nat) :
    ∃ fl : Nat → Byte, callFrames input t cap =
      (List.range (nframes input.length cap)).map (fun i => chunkFrame input cap i (fl i)) := by
  rcases Nat.lt_or_ge (4 * cap) input.length with h | h
  · exact ⟨fun _ => t, by rw [callFrames_oversize h, nframes_oversize h]; rfl⟩
  · rcases Nat.lt_or_ge cap input.length with h1 | h1
    · exact ⟨_, by rw [callFrames_fragmented h1 h, nframes_fragmented h1 h]⟩
    · exact ⟨fun _ => t, by rw [callFrames_single h1, nframes_single h1]; rfl⟩

/-- The first `length` bytes of a frame's payload are its chunk, without the padding (R141, R142). -/
theorem chunkFrame_used (input : List Byte) {cap : Nat} (hcap : cap ≤ 255) (i : Nat) (fl : Byte) :
    (chunkFrame input cap i fl).payload.take (chunkFrame input cap i fl).length.toNat =
      (input.drop (i * cap)).take cap := by
  have hlen : (chunkFrame input cap i fl).length.toNat = ((input.drop (i * cap)).take cap).length := by
    rw [chunkFrame_length_toNat input hcap]; simp
  rw [hlen]
  exact List.take_left

/-- The first `n` chunks, concatenated, are the first `n * C` bytes. -/
theorem flatMap_chunks (input : List Byte) (cap n : Nat) :
    (List.range n).flatMap (fun i => (input.drop (i * cap)).take cap) = input.take (n * cap) := by
  induction n with
  | zero => simp
  | succ n ih => simp [List.range_succ, ih, Nat.add_mul, List.take_add]

/-- The frames of a call that succeeds hold the whole input. -/
theorem length_le_nframes_mul {L C : Nat} (hC : 1 ≤ C) (hL : L ≤ 4 * C) : L ≤ nframes L C * C := by
  have h := mt (lt_nframes_iff hC hL (nframes L C)).2 (Nat.lt_irrefl _)
  exact Nat.not_lt.1 fun hlt => h (.inr hlt)

/-- The used bytes of a successful call's frames, concatenated, are the input. -/
theorem flatMap_used_callFrames {input : List Byte} {cap : Nat} (t : Byte) (hC : 1 ≤ cap) (hcap : cap ≤ 255)
    (hL : input.length ≤ 4 * cap) :
    (callFrames input t cap).flatMap (fun f => f.payload.take f.length.toNat) = input := by
  obtain ⟨fl, hfl⟩ := callFrames_eq_chunks input t cap
  rw [hfl, List.flatMap_map]
  simp only [chunkFrame_used input hcap, flatMap_chunks]
  exact List.take_of_length_le (length_le_nframes_mul hC hL)

/-- A frame's `length` field counts its used bytes. -/
theorem length_used_of_mem {input : List Byte} {t : Byte} {cap : Nat} (hcap : cap ≤ 255) {f : Frame}
    (hf : f ∈ callFrames input t cap) : f.length.toNat = (f.payload.take f.length.toNat).length := by
  obtain ⟨fl, hfl⟩ := callFrames_eq_chunks input t cap
  rw [hfl] at hf
  obtain ⟨i, -, rfl⟩ := List.mem_map.1 hf
  rw [List.length_take, chunkFrame_payload_length, chunkFrame_length_toNat input hcap]
  omega

/-- Settles O13: the used bytes are the chunks, whose concatenation is the input; the `length` fields count them. -/
theorem lengthsAndBytesAreConserved : Obligations.LengthsAndBytesAreConserved := by
  intro input seq cap hC hcap
  refine ⟨fun hL => ?_, fun hover => ?_⟩
  · have hbytes := flatMap_used_callFrames (seqTag seq) hC hcap hL
    refine ⟨callFrames input (seqTag seq) cap, if_neg (Nat.not_lt.2 hL), ?_, hbytes⟩
    calc ((callFrames input (seqTag seq) cap).map (fun f => f.length.toNat)).sum
        = ((callFrames input (seqTag seq) cap).map (fun f => (f.payload.take f.length.toNat).length)).sum := by
          rw [List.map_congr_left fun f hf => length_used_of_mem hcap hf]
      _ = input.length := by rw [← List.length_flatMap, hbytes]
  · have hcall : fragmentCall input seq cap = .oversize input.length := if_pos hover
    exact ⟨hcall, by simp [hcall, CallResult.transfers]⟩

/-! ## FRAGMENT -/

/-- Settles O15: ACCEPT latches the request and `choosePath` writes the registers of the path. -/
theorem fragmentLatchesAndChoosesPath : Obligations.FragmentLatchesAndChoosesPath := by
  intro r s hs hp hr hw
  have hC := (legal_cap hs.1).1
  refine ⟨_, acceptRequest_taken hs hp hr hw, by simp, by simp, by simp [seqTag_eq_ofNat], by simp,
    fun hover => ?_, fun hsingle => ?_, fun h1 h2 => ?_⟩
  · rw [choosePath_oversize (s.latchRequest r) hover]; exact ⟨rfl, rfl, rfl, rfl⟩
  · rw [choosePath_single (s.latchRequest r) hsingle]; exact ⟨rfl, rfl, rfl, rfl⟩
  · obtain ⟨hn, -⟩ := choosePath_path (s.latchRequest r) hC
    rw [latchRequest_len, latchRequest_cfg, nframes_fragmented h1 h2] at hn
    refine ⟨?_, hn, ?_, ?_⟩ <;> rw [choosePath_fragmented (s.latchRequest r) h1 h2] <;> rfl

/-- Settles O17: of all that a step can do, only ACCEPT takes a request, and it starts in IDLE. -/
theorem busyBlockLeavesRequestsOnOffer : Obligations.BusyBlockLeavesRequestsOnOffer := by
  intro s hbusy
  refine ⟨decide_eq_false hbusy, fun r hs => acceptRequest_held hs (.inl hbusy), fun t h => ?_⟩
  obtain hr | ⟨-, rfl⟩ := step_rst_cases h
  · obtain ⟨u, more, hu, rfl⟩ | ⟨r, hi, -⟩ | ⟨f, -, -, -, rfl⟩ | ⟨-, -, rfl⟩ := step_cases hr h
    · exact ⟨more, hu⟩
    · exact absurd hi hbusy
    · exact ⟨[], (List.append_nil _).symm⟩
    · exact ⟨[], (List.append_nil _).symm⟩
  · exact ⟨[], (List.append_nil _).symm⟩

/-- Settles O19: ACCEPT writes the latched registers and those of the path, and nothing else. -/
theorem fragmentFrame : Obligations.FragmentFrame := by
  intro r s t h
  obtain ⟨-, ⟨-, hr, -, rfl⟩ | rfl⟩ := acceptRequest_next h
  · obtain ⟨hcfg, hbuf, hlen, -, -, hwritten, hpend, hfrm, hrsp, hrst, henv, hobs, hdraw⟩ :=
      choosePath_kept (s.latchRequest r)
    refine ⟨hcfg, hfrm, hrsp, hrst, henv, hobs, hdraw, .inr ⟨hr, hpend, hwritten, hlen, fun a => ?_⟩⟩
    rw [hbuf]
    exact read_ofBytes r.input a
  · exact ⟨rfl, rfl, rfl, rfl, rfl, rfl, rfl, .inl rfl⟩

/-! ## The frame kinds -/

/-- The state after the transfer of frame `k`, the count written as a number. -/
theorem afterFrame_eq_sent {s : State} (hlt : s.k.toNat < s.nfr.toNat) (fl : Byte) :
    s.afterFrame (s.chunk s.k.toNat fl) = s.sent s.k.toNat fl := by
  have hk : s.k + 1#3 = BitVec.ofNat 3 (s.k.toNat + 1) := by simp [BitVec.ofNat_add]
  have hlast : s.k + 1#3 = s.nfr ↔ s.k.toNat + 1 = s.nfr.toNat := by
    rw [← BitVec.toNat_inj, k_succ_toNat hlt]
  simp only [State.afterFrame, State.sent, hlast, ← hk]

/-- Frame `i` on offer to a ready sink is transferred by the operation of its kind. -/
theorem takeFrame_of_offers {s : State} {frag : Bool} {i : Nat} {seq : BitVec 5} (h : s.Offers frag i seq) :
    takeFrame (seq ++ kindOf frag i) s = .next (s.sent i (seq ++ kindOf frag i)) := by
  obtain ⟨hs, hl, hp, hready, rfl, rfl, rfl⟩ := h
  obtain ⟨hlt, -⟩ := bound_of_emit hs hp
  rw [← afterFrame_eq_sent hlt]
  exact takeFrame_taken hs hp hready (frameOnOffer_of_latched hs.1 hl hlt) rfl

/-- The same for an operation whose encoding has the kind bits of frame `i`. -/
theorem exec_of_offers {op : Instr} {s : State} {frag : Bool} {i : Nat} {seq : BitVec 5} {kind : BitVec 3}
    (hop : encode op = .frm (seq ++ kind)) (hkind : kind = kindOf frag i) (h : s.Offers frag i seq) :
    exec op s = .next (s.sent i (seq ++ kind)) := by
  rw [exec_of_encode_frm hop, hkind]
  exact takeFrame_of_offers h

/-- The one frame of a single-frame call carries the whole input and is the last. -/
theorem sent_single {s : State} {seq : BitVec 5} (h : s.Offers false 0 seq) (fl : Byte) :
    s.sent 0 fl =
      { s with
        k := 1#3, phase := phaseResp
        obs := s.obs ++ [.frm ⟨BitVec.ofNat 8 s.len, fl, s.inBuf.bytes ++ zeros (s.cfg.cap - s.len)⟩] } := by
  obtain ⟨hs, hl, hp, -, hfrag, hk, -⟩ := h
  obtain ⟨hlt, -, hbound⟩ := bound_of_emit hs hp
  obtain ⟨-, ⟨-, hlen, -⟩, -, hn, hflag, -⟩ := hl
  have hfew : ¬ 2 ≤ s.nfr.toNat := by rw [← hbound, hfrag]; decide
  have hnfr : 0 + 1 = s.nfr.toNat := by omega
  have hL : s.len ≤ s.cfg.cap := by
    rw [hfrag, eq_comm, decide_eq_false_iff_not] at hflag
    by_contra hlong
    rw [nframes_oversize (by omega)] at hn
    omega
  have hchunk : s.chunk 0 fl = ⟨BitVec.ofNat 8 s.len, fl, s.inBuf.bytes ++ zeros (s.cfg.cap - s.len)⟩ := by
    simp [State.chunk, hlen, Nat.min_eq_right (hlen ▸ hL)]
  rw [State.sent, hchunk, if_pos hnfr]

/-- Settles O22: the frame of kind `000` is taken, and it is the call's whole input. -/
theorem frameSingleTransfers : Obligations.FrameSingleTransfers := by
  intro seq s h
  rw [← sent_single h]
  exact exec_of_offers rfl (by decide) h

/-- Settles O23: the kind bits of FRAME_FRAGi are those of frame `i`. -/
theorem fragmentFramesTransfer : Obligations.FragmentFramesTransfer :=
  fun _ _ => ⟨exec_of_offers rfl (by decide), exec_of_offers rfl (by decide), exec_of_offers rfl (by decide),
    exec_of_offers rfl (by decide)⟩

/-- Settles O25: a frame kind changes nothing, or it is `afterFrame` of the frame on offer. -/
theorem frameKindsFrame : Obligations.FrameKindsFrame := by
  intro i b s t he h
  rw [exec_of_encode_frm he] at h
  obtain ⟨-, ⟨f, -, -, hf, hfl, rfl⟩ | rfl⟩ := takeFrame_next h
  · simp [hf, hfl]
  · simp

/-! ## The responses and back-pressure -/

/-- Settles O26: the response on offer is `(status, nfr)`, and the operation whose word it is takes it. -/
theorem responsesTransfer : Obligations.ResponsesTransfer := by
  intro s hs hp hready
  refine ⟨fun n hstatus hn => ?_, fun hstatus hn => ?_⟩
  · have hrsp : s.responseOnOffer = ⟨false, n⟩ := by rw [State.responseOnOffer, hstatus, hn]
    rw [← hrsp]
    exact takeResponse_taken hs hp hready (congrArg responseWord hrsp)
  · have hrsp : s.responseOnOffer = ⟨true, 0#3⟩ := by rw [State.responseOnOffer, hstatus, hn]
    rw [← hrsp]
    exact takeResponse_taken hs hp hready (congrArg responseWord hrsp)

/-- A withheld ready line leaves the block nothing to transfer. -/
theorem fetch_of_withheld {s : State}
    (h : (s.phase = phaseEmit ∧ s.frmReady = false) ∨ (s.phase = phaseResp ∧ s.rspReady = false)) :
    s.fetch = none := by
  rcases h with ⟨hp, hready⟩ | ⟨hp, hready⟩
  · simp [State.fetch, State.fetchWord, hp, hready, idle_ne_emit.symm]
  · simp [State.fetch, State.fetchWord, hp, hready, idle_ne_resp.symm, emit_ne_resp.symm]

/-- Where no agent has an enabled step, a step only counts the draw. -/
theorem step_of_waiting {s : State} (hs : s.Sound) (hw : s.Waiting) : step s = .next s.tick := by
  obtain ⟨hr, he, hf⟩ := hw
  have htick : turnState s = s.tick := by simp [turnState, State.tick, he]
  rw [step_of_block hs hr (.inl he), htick, runBlock, fetch_tick, hf]

/-- Waiting goes on for any number of steps. -/
theorem run_of_waiting (n : Nat) : ∀ {s : State}, s.Sound → s.Waiting →
    Host.Core.run core n s = .next { s with draw := s.draw + n } := by
  induction n with
  | zero => intro s _ _; rfl
  | succ n ih =>
    intro s hs hw
    rw [run_succ (step_of_waiting hs hw), ih (s := s.tick) hs hw, tick_draw, Nat.add_right_comm, Nat.add_assoc]
    rfl

/-- Settles O40: with its item not accepted the block waits, and EMIT and RESP are not the end of a run. -/
theorem withheldReceiverLeavesTheBlockStuck : Obligations.WithheldReceiverLeavesTheBlockStuck := by
  intro s hs hr he hheld
  have hw : s.Waiting := ⟨hr, he, fetch_of_withheld hheld⟩
  have hbusy : s.phase ≠ phaseIdle := by
    rcases hheld with ⟨hp, -⟩ | ⟨hp, -⟩
    · exact emit_ne_idle_of hp
    · exact resp_ne_idle_of hp
  exact ⟨⟨hw, fun ⟨hidle, _⟩ => hbusy hidle⟩, fun n => run_of_waiting n hs hw⟩

/-- Settles O49: `run_request`, with what it leaves of the agents. -/
theorem callTakesItsFramesPlusTwoTransfers : Obligations.CallTakesItsFramesPlusTwoTransfers := by
  intro s r rest hs hp hpend hw hfrm hrsp hrst henv
  obtain ⟨t, hrun, ht⟩ := run_request hs ⟨hfrm, hrsp, hrst, henv⟩ hp hpend hw
  obtain ⟨hp', ⟨hfrm', hrsp', hrst', henv'⟩, hcfg', hpend', hobs'⟩ := ht
  exact ⟨t, hrun, hobs', hp', hpend', hcfg', hfrm', hrsp', hrst', henv'⟩

end Sys2Proof.Proofs
end

section
/-! SUPPORT. Proofs for the tag, the frame count and the chunk lengths
(41_payload_slicer_metadata_encoder.md R120, R121, R129, R131). -/

namespace Sys2Proof.Proofs

open Sys2Proof.Machine Sys2Proof.Laws

/-! ## The tag -/

/-- Under a legal width the counter's two's-complement bits keep its value mod 32 (R120). -/
theorem presentedSeq_emod {c : Config} (hc : c.legal = true) (counter : Int) :
    (presentedSeq c counter : Int) % 32 = counter % 32 := by
  have hbits : 5 ≤ c.seqBits := by
    simp only [Config.legal, Bool.and_eq_true, decide_eq_true_eq] at hc
    obtain ⟨-, h⟩ := hc
    exact h
  have hdvd : (32 : Int) ∣ (2 ^ c.seqBits : Nat) := Int.natCast_dvd_natCast.2 (Nat.pow_dvd_pow 2 hbits)
  rw [presentedSeq, Int.toNat_of_nonneg (Int.emod_nonneg _ (by simp)), Int.emod_emod_of_dvd _ hdvd]

/-- Settles O6: `seqTag` is SEQ over three zero bits, and its value is that of the low five bits. -/
theorem sequenceTagIsTheLowFiveBits : Obligations.SequenceTagIsTheLowFiveBits := by
  refine ⟨fun seq => ⟨rfl, seqTag_toNat seq, seqField_seqTag seq, kindField_seqTag seq⟩,
    fun _ _ h => seqTag_congr h, fun c counter hc => ?_⟩
  rw [seqTag_toNat, ← presentedSeq_emod hc counter]
  push_cast
  rfl

/-- Settles O7: the tag is `(seq mod 32) * 8`, so the shift gives `seq mod 32` and the mask keeps it. -/
theorem sequenceTagRoundTrips : Obligations.SequenceTagRoundTrips := by
  intro seq
  have hshift : (seqTag seq >>> 3).toNat = seq % 32 := by
    rw [BitVec.toNat_ushiftRight, seqTag_toNat, Nat.shiftRight_eq_div_pow]
    exact Nat.mul_div_cancel _ (by decide)
  calc ((seqTag seq >>> 3) &&& 0x1F#8).toNat
      = seq % 32 &&& 2 ^ 5 - 1 := by rw [BitVec.toNat_and, hshift]; rfl
    _ = seq % 32 := by rw [Nat.and_two_pow_sub_one_eq_mod, Nat.mod_mod]

/-! ## The frame count -/

/-- A call has at least one frame, unless it is oversize. -/
theorem nframes_pos {L C : Nat} (hC : 1 ≤ C) (hL : L ≤ 4 * C) : 0 < nframes L C :=
  (lt_nframes_iff hC hL 0).2 (.inl rfl)

/-- Settles O8: on the fragmented path the count is `ceilDiv L C`, whose last chunk starts inside the input. -/
theorem frameCountByPath : Obligations.FrameCountByPath := by
  intro L C hC
  refine ⟨nframes_oversize, nframes_single, fun h1 h2 => ?_⟩
  have hn := nframes_fragmented h1 h2
  have hpos := nframes_pos hC h2
  exact ⟨hn, hn ▸ (ceilDiv_bounds hC h1 h2).1, nframes_le_four hC, chunk_start_lt hC h1 h2 (by omega),
    length_le_nframes_mul hC h2⟩

/-! ## The chunk lengths -/

/-- The first `n` chunks hold `n * C` bytes, or all `L`. -/
theorem sum_chunkLengths (L C n : Nat) :
    ((List.range n).map (fun i => min C (L - i * C))).sum = min (n * C) L := by
  induction n with
  | zero => simp
  | succ n ih =>
    rw [List.range_succ, List.map_append, List.sum_append, ih, Nat.add_mul]
    simp only [List.map_cons, List.map_nil, List.sum_singleton]
    omega

/-- The lengths `slice` gives over a call that succeeds sum to `L` (R131). -/
theorem sum_slice_lengths {L C : Nat} (hC : 1 ≤ C) (hL : L ≤ 4 * C) :
    ((List.range (nframes L C)).map (fun i => ((slice L C i).getD (0, 0)).2)).sum = L := by
  have hslice : ∀ i ∈ List.range (nframes L C), ((slice L C i).getD (0, 0)).2 = min C (L - i * C) :=
    fun i hi => by rw [slice_of_lt (List.mem_range.1 hi)]; rfl
  rw [List.map_congr_left hslice, sum_chunkLengths, Nat.min_eq_right (length_le_nframes_mul hC hL)]

/-- The last chunk of a fragmented call holds between 1 and `C` bytes (R131). -/
theorem last_chunk_bounds {L C : Nat} (hC : 1 ≤ C) (h1 : C < L) (h2 : L ≤ 4 * C) :
    1 ≤ L - (nframes L C - 1) * C ∧ L - (nframes L C - 1) * C ≤ C := by
  have hpos := nframes_pos hC h2
  have hstart := chunk_start_lt hC h1 h2 (i := nframes L C - 1) (by omega)
  have hend := length_le_nframes_mul hC h2
  have hsplit : nframes L C * C = (nframes L C - 1) * C + C := by
    rw [← Nat.succ_mul, Nat.succ_eq_add_one, Nat.sub_add_cancel hpos]
  omega

/-- Settles O9: `slice` gives `min C (L - i*C)`, which is `C` before the last chunk and the rest there. -/
theorem chunkLengthsByPath : Obligations.ChunkLengthsByPath := by
  intro L C hC
  refine ⟨fun h1 h2 => ?_, fun hsingle => ?_⟩
  · obtain ⟨hone, hcap⟩ := last_chunk_bounds hC h1 h2
    have hpos := nframes_pos hC h2
    refine ⟨fun i hi => ?_, ?_, hone, hcap, sum_slice_lengths hC h2⟩
    · have hend := chunk_end_lt hC h2 hi
      rw [slice_of_lt (by omega), Nat.min_eq_left (by omega)]
    · rw [slice_of_lt (by omega), Nat.min_eq_right hcap]
  · have hpos := nframes_pos (L := L) hC (by omega)
    rw [slice_of_lt hpos, Nat.zero_mul, Nat.sub_zero, Nat.min_eq_right hsingle]

end Sys2Proof.Proofs
end

section
/-! SUPPORT. Proofs for frame_composer (42_frame_composer.md R141 to R144, R146): what a composed frame holds, and
which offsets it depends on. -/

namespace Sys2Proof.Proofs

open Sys2Proof.Machine Sys2Proof.Laws

/-! ## The frame composed from a chunk inside the buffer -/

/-- A chunk inside the buffer has its full length. -/
theorem chunk_length {bs : List Byte} {off len : Nat} (hin : off + len ≤ bs.length) :
    ((bs.drop off).take len).length = len := by
  rw [List.length_take, List.length_drop]
  omega

/-- Settles O11: the payload is the chunk followed by zeros, so byte `j` is read left or right of the seam at `len`. -/
theorem composedFrameIsChunkThenZeros : Obligations.ComposedFrameIsChunkThenZeros := by
  intro bs cap off len fl hin hlen hcap
  have hchunk := chunk_length hin
  refine ⟨_, compose_ofBytes bs fl hin hlen, ?_, ?_, rfl, fun j hj => ?_, fun j hj hjcap => ?_⟩
  · rw [List.length_append, hchunk, zeros, List.length_replicate]
    omega
  · rw [BitVec.toNat_ofNat, Nat.mod_eq_of_lt (by omega)]
  · rw [List.getElem?_append_left (hchunk.symm ▸ hj), List.getElem?_take_of_lt hj, List.getElem?_drop]
  · rw [List.getElem?_append_right (hchunk.symm ▸ hj), hchunk, zeros,
      List.getElem?_replicate_of_lt (by omega)]

/-! ## The offsets a compose depends on -/

/-- Memories that agree on the chunk give the same payload bytes, from any position on. -/
theorem payloadFrom_congr {m m' : Memory} {off len : Nat}
    (h : ∀ j, j < len → m.read (off + j) = m'.read (off + j)) :
    ∀ n j, payloadFrom m off len j n = payloadFrom m' off len j n := by
  intro n
  induction n with
  | zero => exact fun _ => rfl
  | succ n ih =>
    intro j
    have hbyte : (if j < len then m.read (off + j) else some 0x00#8) =
        if j < len then m'.read (off + j) else some 0x00#8 := by
      split
      next hj => exact h j hj
      next => rfl
    rw [payloadFrom, payloadFrom, hbyte, ih]

/-- A chunk byte with no value among those still to be written leaves no payload. -/
theorem payloadFrom_eq_none {m : Memory} {off len i : Nat} (hi : i < len) (hread : m.read (off + i) = none) :
    ∀ n j, j ≤ i → i < j + n → payloadFrom m off len j n = none := by
  intro n
  induction n with
  | zero => intro j _ _; omega
  | succ n ih =>
    intro j hji hin
    rw [payloadFrom]
    rcases Nat.eq_or_lt_of_le hji with rfl | hlt
    · rw [if_pos hi, hread]
    · rw [ih (j + 1) hlt (by omega)]
      cases (if j < len then m.read (off + j) else some 0x00#8) <;> rfl

/-- Settles O12: both clauses are those of the payload, the only part of a frame that reads memory. -/
theorem composeReadsOnlyItsChunk : Obligations.ComposeReadsOnlyItsChunk := by
  refine ⟨fun m m' cap off len fl h => ?_, fun m cap off len j fl hj hlen hread => ?_⟩
  · rw [compose, compose, payloadFrom_congr h]
  · rw [compose, payloadFrom_eq_none hj hread cap 0 (Nat.zero_le j) (by omega)]

end Sys2Proof.Proofs
end

section
/-! SUPPORT. Proofs for the exceptions (60_exceptions.md R160 to R166, R173): the oversize error is entered and
left through its response, and a configuration outside the legal ranges is refused. -/

namespace Sys2Proof.Proofs

open Sys2Proof.Machine Sys2Proof.Laws

/-! ## OVERSIZE (R160, R161, R163, R165, R166) -/

/-- What a block in RESP shows: its response, and nothing else (R25, R108). -/
theorem outputs_of_resp {s : State} (h : s.phase = phaseResp) :
    s.outputs.frmValid = false ∧ s.outputs.reqReady = false ∧ s.outputs.rspValid = true ∧
      s.outputs.rsp = s.responseOnOffer := by
  have hv : s.rspValid = true := (rspValid_iff s).2 h
  refine ⟨?_, ?_, hv, outputs_rsp hv⟩
  · simp [State.frmValid, h, emit_ne_resp.symm]
  · simp [State.reqReady, h, idle_ne_resp.symm]

/-- An oversize request is latched and raises the error (R105). -/
theorem execFragment_oversize {r : Request} {s : State} (hs : s.Sound) (hp : s.phase = phaseIdle)
    (hr : s.pending.head? = some r) (hw : r.wf s.cfg = true) (hover : 4 * s.cfg.cap < r.input.length) :
    exec (.fragment r) s = .next (s.latchRequest r).raiseOversize := by
  rw [← choosePath_oversize (s.latchRequest r) hover]
  exact acceptRequest_taken hs hp hr hw

/-- The error state offers RSP_OVERSIZE, which a ready caller takes (R166). -/
theorem execRspOversize_of_raiseOversize {s : State} (hc : s.cfg.legal = true) (hw : s.written = true)
    (hready : s.rspReady = true) :
    exec .rspOversize s.raiseOversize = .next s.raiseOversize.afterResponse :=
  takeResponse_taken (sound_of_resp hc rfl hw) rfl hready rfl

/-- Settles O16: the error is entered by `raiseOversize` and left by `afterResponse`. -/
theorem oversizeReportsAndReturnsToIdle : Obligations.OversizeReportsAndReturnsToIdle := by
  intro r s hs hp hr hw hready hover
  obtain ⟨hfrm, hreq, hvalid, hrsp⟩ := outputs_of_resp (raiseOversize_phase (s.latchRequest r))
  obtain ⟨hreq', -, hvalid'⟩ := outputs_of_idle (afterResponse_phase (s.latchRequest r).raiseOversize)
  exact ⟨_, _, execFragment_oversize hs hp hr hw hover, hfrm, hreq, hvalid, hrsp,
    execRspOversize_of_raiseOversize hs.1 rfl hready, hreq', hvalid', rfl, rfl⟩

/-! ## Configurations that do not exist (R173) -/

theorem elaborate_eq_none_iff (C l q : Nat) : Config.elaborate C l q = none ↔ Config.legal ⟨C, l, q⟩ = false := by
  simp [Config.elaborate]

theorem legal_eq_false_iff (c : Config) :
    c.legal = false ↔ (c.cap < 1 ∨ 255 < c.cap ∨ c.lenBits < 10 ∨ c.seqBits < 5) := by
  rw [← Bool.not_eq_true]
  simp only [Config.legal, Bool.and_eq_true, decide_eq_true_eq]
  omega

/-- Settles O42: elaboration asks for `legal`, whose failure is one of the four bounds, and gives back its
arguments otherwise. -/
theorem badConfigurationIsRefused : Obligations.BadConfigurationIsRefused := by
  intro C l q
  have hbad := legal_eq_false_iff ⟨C, l, q⟩
  refine ⟨(elaborate_eq_none_iff C l q).trans hbad, fun hgood => if_pos ?_⟩
  rwa [← hbad, Bool.not_eq_false] at hgood

/-- Settles O43: the step and every operation are guarded, and the guard first asks that the block exists. -/
theorem nothingRunsUnderABadConfiguration : Obligations.NothingRunsUnderABadConfiguration := by
  intro s i hnone
  have hc : s.cfg.legal = false := (elaborate_eq_none_iff _ _ _).1 hnone
  obtain ⟨go, hgo⟩ := exec_guarded i s
  exact ⟨guarded_illegal hc _, by rw [hgo, guarded_illegal hc]⟩

end Sys2Proof.Proofs
end

section
/-! SUPPORT. Proofs for the choices of the model that stand beside the rules: the request that REQ cannot carry
(log 9), what the reset step leaves to the other agents (logs 3, 4, 19), and the values after reset (logs 1, 2). -/

namespace Sys2Proof.Proofs

open Sys2Proof.Machine Sys2Proof.Laws

/-! ## A request that REQ cannot carry (log 9) -/

/-- The third case of ACCEPT, beside `acceptRequest_taken` and `acceptRequest_held`. -/
theorem acceptRequest_unpresentable {r : Request} {s : State} (hs : s.Sound) (hp : s.phase = phaseIdle)
    (hr : s.pending.head? = some r) (hw : r.wf s.cfg = false) :
    acceptRequest r s = .refused .requestNotPresentable := by
  rw [acceptRequest, guarded_of_sound hs, if_pos ⟨hp, hr⟩, if_neg (by simp [hw])]

/-- Settles O18: FRAGMENT is ACCEPT, which refuses the request on offer. -/
theorem unpresentableRequestIsRefused : Obligations.UnpresentableRequestIsRefused :=
  fun _ _ hs hp hr hw => acceptRequest_unpresentable hs hp hr hw

/-! ## Reset -/

/-- Settles O31: the reset step is `resetBlock` of the counted draw, and `resetBlock` carries the agents' side over. -/
theorem resetStepTouchesNoOtherAgent : Obligations.ResetStepTouchesNoOtherAgent := by
  intro s t hr h
  obtain rfl := step_of_asserted_reset hr h
  exact ⟨resetBlock_rst _, resetBlock_written _, resetBlock_frmReady _, resetBlock_rspReady _,
    resetBlock_pending _, resetBlock_env _⟩

/-- The reset state is what a reset step would leave of it. -/
theorem resetBlock_resetWith (c : Config) : (State.resetWith c).resetBlock = State.resetWith c := rfl

theorem inv_resetWith {c : Config} (hc : c.legal = true) : (State.resetWith c).Inv :=
  resetBlock_resetWith c ▸ inv_resetBlock (s := State.resetWith c) hc

/-- Settles O44: the reset state has the invariant as every state after a reset step has it, and the examples'
configuration is legal. -/
theorem invariantHoldsAfterReset : Obligations.InvariantHoldsAfterReset :=
  ⟨fun _ hc => inv_resetWith hc, inv_resetWith (c := Config.ofExamples) (by decide)⟩

end Sys2Proof.Proofs
end
